-- ==== Sys2Proof/Word.lean ====
section
/-! DEFINITION. The word types of the block: octets and 16-bit fields (R7, R38). Every value of the block is unsigned. -/

namespace Sys2Proof

/-- An octet, 0 to 255 (R7). -/
abbrev Byte := BitVec 8

/-- A 16-bit field of a frame: `src`, `dst`, `cs` (R37). -/
abbrev Half := BitVec 16

end Sys2Proof
end

