-- ==== Sys2Proof/Config.lean ====
section
/-! DEFINITION. The parameters of R6: the fixed ones as named constants, the OPEN ones (`CLOCK_W`, `BUF_CAP`,
`MASTER_ID`) as a record, and the free values: constants without a body, so that no proof can see what they are. -/

namespace Sys2Proof

/-- `SYNC0`, the first synchronization octet (R6, R40). -/
def sync0 : Byte := 0x55#8

/-- `SYNC1`, the second synchronization octet (R6, R40). -/
def sync1 : Byte := 0xAA#8

/-- `HDR_LEN`, the header octets after sync (R6, C1). -/
def hdrLen : Nat := 7

/-- `CS_LEN`, the checksum octets (R6). -/
def csLen : Nat := 2

/-- `LEN_MAX`, the largest value of the 1-octet length field (R6). -/
def lenMax : Nat := 255

/-- `STALL_MS`, the stall window in clock units (R6, D25, U1). DESIGN CHOICE of the spec, "unaudited": log entry 15. -/
def stallMs : Nat := 500

/-- The OPEN parameters of R6, with the bounds R6 puts on them. They "are fixed for the life of the model" (R25). -/
structure Params where
  /-- `CLOCK_W`, the width of `now` and `tl` (D11). -/
  clockW : Nat
  /-- `BUF_CAP`, the receive-buffer capacity in octets (D12). -/
  bufCap : Nat
  /-- `MASTER_ID`, the source field the encoder writes (D14). -/
  masterId : Half
  clockW_ge : 10 ≤ clockW
  bufCap_ge : 9 ≤ bufCap
  deriving DecidableEq, Repr

/-- `PAYLOAD_MAX = min(BUF_CAP - 9, 255)`, the largest payload length the assembler accepts (R6). -/
def Params.payloadMax (p : Params) : Nat := min (p.bufCap - 9) lenMax

/-- The same parameters but for the capacity of the buffer. -/
def Params.withCap (p : Params) (cap : Nat) (h : 9 ≤ cap) : Params := ⟨p.clockW, cap, p.masterId, p.clockW_ge, h⟩

/-- How far `CLOCK_W` lies above its least value 10. OPEN (D11): no value is given. -/
opaque Config.clockWExcess : Nat

/-- How far `BUF_CAP` lies above its least value 9. OPEN (D12): no value is given. -/
opaque Config.bufCapExcess : Nat

/-- `MASTER_ID`. OPEN (D14, N2): no value is given. -/
opaque Config.masterId : Half

/-- The parameters of the machine that `State.reset` describes: any that R6 allows (log entry 1). -/
def Config.params : Params where
  clockW := 10 + Config.clockWExcess
  bufCap := 9 + Config.bufCapExcess
  masterId := Config.masterId
  clockW_ge := Nat.le_add_right 10 _
  bufCap_ge := Nat.le_add_right 9 _

/-- FREE VALUE: what `buf[i]` holds after the `k`-th RESET (or power-on, `k = 0`) while the block has not written it
(R21, U2; log entry 4). -/
opaque Config.freeByte (k i : Nat) : Byte

/-- FREE VALUE: what the `k`-th RESET leaves in `idx` (R86, U3; log entry 3). -/
opaque Config.freeIdx (k : Nat) : BitVec 9

/-- FREE VALUE: what the `k`-th RESET leaves in `rem` (R86, U3; log entry 3). -/
opaque Config.freeRem (k : Nat) : BitVec 9

/-- FREE VALUE: what the `k`-th RESET leaves in `tl`, before it is cut to `CLOCK_W` bits (R86, U3; log entry 3). -/
opaque Config.freeTl (k : Nat) : Nat

end Sys2Proof
end

