-- ==== Sys2Proof/Syntax.lean ====
section
/-! DEFINITION. The instructions of spec/opcode_table.json (ten rows, ten constructors), the command word's four
commands (R42), and the two forms in which the host hands an instruction over: the port samples of one step (R43) and
a frame named by its kind (R41). -/

namespace Sys2Proof

/-- One constructor per row of spec/opcode_table.json. The first four are the commands of R42. The other six are the
frame kinds of R41, which the block does not decode: each stands for what R47 gives it, "the encode rule (out) or the
assembly rules (in)" (log entry 7). Clock values are numbers; the block samples their low `CLOCK_W` bits (log entry 9). -/
inductive Instr where
  /-- TICK: a time check with no octet (R65). -/
  | tick (now : Nat)
  /-- BYTE: one received octet `b` (R58). -/
  | byte (b : Byte) (now : Nat)
  /-- ENCODE: build and transmit one frame (R50); `n` is the length of the payload. -/
  | encode (dst : Half) (ctrl func : Byte) (payload : List Byte)
  /-- RESET (R86). -/
  | reset
  /-- Discovery, out: "destination 0, control 0x00, function 0x00, empty payload" (R41). -/
  | discovery
  /-- AllocateAddress, out: "payload = serial identifier (10 octets) + allocated address (1 octet)" (R41). -/
  | allocateAddress (serial : List Byte) (address : Byte)
  /-- InformationRequest, out: "destination = target device address" (R41). -/
  | informationRequest (target : Half)
  /-- Registration request, in: the frame's octets at `t0`, `t0 + d`, … (R41, R46). -/
  | registrationRequest (src dst : Half) (serial : List Byte) (t0 d : Nat)
  /-- Registration confirmation, in: its payload length is not stated (R41, N17). -/
  | registrationConfirmation (src dst : Half) (payload : List Byte) (t0 d : Nat)
  /-- Information response, in: telemetry of at least 44 octets (R41). -/
  | informationResponse (src dst : Half) (payload : List Byte) (t0 d : Nat)
  deriving DecidableEq, Repr

/-- What a command word asks for (R42). -/
inductive Command where
  | tick
  | byte (b : Byte)
  | encode (n : Byte)
  | reset
  deriving DecidableEq, Repr

/-- The input ports of one step (R43). `encDst`, `encCtrl`, `encFunc` and `encPayload` are valid on ENCODE only. -/
structure Ports where
  cmd : BitVec 10
  now : Nat := 0
  encDst : Half := 0
  encCtrl : Byte := 0
  encFunc : Byte := 0
  encPayload : List Byte := []
  deriving DecidableEq, Repr

/-- A frame handed over by its kind: the key `{ctrl, func}` of the opcode table's frame_kind rows, the fields of R41,
and the times of R46's BYTES (`t0`, then `d` between octets) for an inbound one. -/
structure FrameDesc where
  key : BitVec 16
  src : Half := 0
  dst : Half := 0
  payload : List Byte := []
  t0 : Nat := 0
  d : Nat := 0
  deriving DecidableEq, Repr

/-- One entry of what the host presents: the ports of one step, or a frame named by its kind. -/
inductive HostItem where
  | command (p : Ports)
  | frame (f : FrameDesc)
  deriving DecidableEq, Repr

/-- Why the decoder rejects an entry. -/
inductive DecodeError where
  /-- A reserved command word: `op` 00 or 11 with `arg ≠ 0` (R44, U5). -/
  | reservedCommand (cmd : BitVec 10)
  /-- The payload port of an ENCODE does not carry its `n = arg` octets (R43; log entry 13). -/
  | payloadPortShort (n given : Nat)
  /-- A key that no frame_kind row of the table has (R41; log entry 14). -/
  | notAFrameKind (key : BitVec 16)
  /-- A key of the table with fields that its row of R41 excludes (log entry 14). -/
  | frameKindFields (key : BitVec 16)
  deriving DecidableEq, Repr

/-- What the decoder answers: an instruction, or Invalid with the reason (R44: "the decoder of command words is total
and returns `Invalid`"). -/
inductive Decoded where
  | ok (i : Instr)
  | invalid (e : DecodeError)
  deriving DecidableEq, Repr

/-- One line of a program in the notation of R46, with the clock value it is applied at. -/
inductive AsmLine where
  | tick (t : Nat)
  | byte (b : Byte) (t : Nat)
  | encode (dst : Half) (ctrl func : Byte) (payload : List Byte) (t : Nat)
  | reset (t : Nat)
  /-- The pseudo-instruction `BYTES h0 … hk @ t0 +d`; `none` is an omitted `+d`. -/
  | bytes (hs : List Byte) (t0 : Nat) (d : Option Nat)
  deriving DecidableEq, Repr

end Sys2Proof
end

