-- ==== Sys2Proof/WellFormed.lean ====
section
/-! DEFINITION. Which terms of `Instr` are instructions: the lengths that the encodings and R41 fix. -/

namespace Sys2Proof

/-- A payload's length fits the 1-octet length field (R37: 0 ≤ L ≤ 255). -/
def payloadFits (payload : List Byte) : Bool := payload.length ≤ lenMax

/-- A serial identifier is 10 octets (R41). -/
def serialFits (serial : List Byte) : Bool := serial.length == 10

/-- An information response carries at least 44 octets of telemetry (R41). -/
def telemetryFits (payload : List Byte) : Bool := 44 ≤ payload.length && payloadFits payload

/-- The terms that some words encode. Registers, octets and 16-bit fields fit by their types. -/
def Instr.wf : Instr → Bool
  | .tick _ => true
  | .byte _ _ => true
  | .encode _ _ _ payload => payloadFits payload
  | .reset => true
  | .discovery => true
  | .allocateAddress serial _ => serialFits serial
  | .informationRequest _ => true
  | .registrationRequest _ _ serial _ _ => serialFits serial
  | .registrationConfirmation _ _ payload _ _ => payloadFits payload
  | .informationResponse _ _ payload _ _ => telemetryFits payload

end Sys2Proof
end

