-- ==== Sys2Proof/Decode.lean ====
section
/-! DEFINITION. The decoder (total, rejecting by name), the encoder written from the same tables (R41, R42), the rows
of the opcode table, the pseudo-instruction BYTES and the program notation of R46, and the reading of a bare table word. -/

namespace Sys2Proof

/-! ### The command word (R42, R44) -/

/-- `op = cmd[9:8]` (R42). -/
def cmdOp (w : BitVec 10) : BitVec 2 := w.extractLsb' 8 2

/-- `arg = cmd[7:0]` (R42). -/
def cmdArg (w : BitVec 10) : Byte := w.extractLsb' 0 8

/-- The decoder of command words: R42's table, and `none` (Invalid) for the reserved words of R44. -/
def decodeCommandWord (w : BitVec 10) : Option Command :=
  if cmdOp w = 0b01#2 then some (.byte (cmdArg w))
  else if cmdOp w = 0b10#2 then some (.encode (cmdArg w))
  else if cmdArg w ≠ 0#8 then none
  else if cmdOp w = 0b00#2 then some .tick
  else some .reset

/-- The word of a command: `{op, arg}` (R42). -/
def encodeCommandWord : Command → BitVec 10
  | .tick => (0b00#2 ++ 0x00#8 : BitVec 10)
  | .byte b => (0b01#2 ++ b : BitVec 10)
  | .encode n => (0b10#2 ++ n : BitVec 10)
  | .reset => (0b11#2 ++ 0x00#8 : BitVec 10)

/-- The instruction that one step's ports ask for. The payload of an ENCODE is `enc_payload[0..n-1]` (R50). -/
def decodePorts (p : Ports) : Decoded :=
  match decodeCommandWord p.cmd with
  | none => .invalid (.reservedCommand p.cmd)
  | some .tick => .ok (.tick p.now)
  | some (.byte b) => .ok (.byte b p.now)
  | some (.encode n) =>
    if n.toNat ≤ p.encPayload.length then
      .ok (.encode p.encDst p.encCtrl p.encFunc (p.encPayload.take n.toNat))
    else .invalid (.payloadPortShort n.toNat p.encPayload.length)
  | some .reset => .ok .reset

/-! ### The frame kinds (R41) -/

/-- The key `{ctrl, func}` of a frame kind. -/
def kindKey (ctrl func : Byte) : BitVec 16 := (ctrl ++ func : BitVec 16)

/-- The instruction that a frame named by its kind stands for: the rows of R41, with the fields R41 fixes. -/
def decodeFrame (f : FrameDesc) : Decoded :=
  if f.key = kindKey 0x00 0x00 then
    if f.dst = 0 ∧ f.payload = [] then .ok .discovery else .invalid (.frameKindFields f.key)
  else if f.key = kindKey 0x00 0x01 then
    if f.dst = 0 ∧ f.payload.length = 11 then
      .ok (.allocateAddress (f.payload.take 10) (f.payload.getD 10 0))
    else .invalid (.frameKindFields f.key)
  else if f.key = kindKey 0x01 0x02 then
    if f.payload = [] then .ok (.informationRequest f.dst) else .invalid (.frameKindFields f.key)
  else if f.key = kindKey 0x00 0x80 then
    if serialFits f.payload then .ok (.registrationRequest f.src f.dst f.payload f.t0 f.d)
    else .invalid (.frameKindFields f.key)
  else if f.key = kindKey 0x00 0x81 then
    if payloadFits f.payload then .ok (.registrationConfirmation f.src f.dst f.payload f.t0 f.d)
    else .invalid (.frameKindFields f.key)
  else if f.key = kindKey 0x01 0x81 then
    if telemetryFits f.payload then .ok (.informationResponse f.src f.dst f.payload f.t0 f.d)
    else .invalid (.frameKindFields f.key)
  else .invalid (.notAFrameKind f.key)

/-- The decoder: total on everything the host can present. -/
def decode : HostItem → Decoded
  | .command p => decodePorts p
  | .frame f => decodeFrame f

/-! ### The encoder -/

/-- The length octet of a payload: `n = cmd[7:0]` of its ENCODE (R50), `len` of its frame (R37). -/
def lengthOctet (payload : List Byte) : Byte := BitVec.ofNat 8 payload.length

/-- The words of an instruction, from R41 and R42. Ports and fields that are not operands are 0. -/
def encode : Instr → HostItem
  | .tick now => .command { cmd := encodeCommandWord .tick, now := now }
  | .byte b now => .command { cmd := encodeCommandWord (.byte b), now := now }
  | .encode dst ctrl func payload => .command {
      cmd := encodeCommandWord (.encode (lengthOctet payload))
      encDst := dst, encCtrl := ctrl, encFunc := func, encPayload := payload }
  | .reset => .command { cmd := encodeCommandWord .reset }
  | .discovery => .frame { key := kindKey 0x00 0x00 }
  | .allocateAddress serial address => .frame { key := kindKey 0x00 0x01, payload := serial ++ [address] }
  | .informationRequest target => .frame { key := kindKey 0x01 0x02, dst := target }
  | .registrationRequest src dst serial t0 d => .frame {
      key := kindKey 0x00 0x80, src := src, dst := dst, payload := serial, t0 := t0, d := d }
  | .registrationConfirmation src dst payload t0 d => .frame {
      key := kindKey 0x00 0x81, src := src, dst := dst, payload := payload, t0 := t0, d := d }
  | .informationResponse src dst payload t0 d => .frame {
      key := kindKey 0x01 0x81, src := src, dst := dst, payload := payload, t0 := t0, d := d }

/-! ### The pseudo-instruction BYTES and the program notation (R46) -/

/-- `BYTES h0 … hk @ t0 +d`: one BYTE per octet, octet `k` at `t0 + k*d` (R46). -/
def bytesAt : List Byte → Nat → Nat → List HostItem
  | [], _, _ => []
  | b :: bs, t, d => encode (.byte b t) :: bytesAt bs (t + d) d

/-- The port samples of one program line (R46). ENCODE and RESET carry their clock value too; the block ignores it. -/
def AsmLine.assemble : AsmLine → List HostItem
  | .tick t => [.command { cmd := 0x000, now := t }]
  | .byte b t => [.command { cmd := encodeCommandWord (.byte b), now := t }]
  | .encode dst ctrl func payload t => [.command {
      cmd := encodeCommandWord (.encode (lengthOctet payload)), now := t
      encDst := dst, encCtrl := ctrl, encFunc := func, encPayload := payload }]
  | .reset t => [.command { cmd := 0x300, now := t }]
  | .bytes hs t0 d => bytesAt hs t0 (d.getD 1)

/-- The port samples of a program, one line after the other (R46). -/
def assemble (program : List AsmLine) : List HostItem := program.flatMap AsmLine.assemble

/-! ### The rows of spec/opcode_table.json -/

/-- A row of the opcode table: its mnemonic and its match and mask. -/
structure OpcodeRow where
  mnemonic : String
  pattern : Nat
  mask : Nat
  deriving DecidableEq, Repr

/-- The four rows of format cmd10, over `cmd[9:0]`. -/
def commandRows : List OpcodeRow := [
  ⟨"TICK", 0x000, 0x3FF⟩, ⟨"BYTE", 0x100, 0x300⟩, ⟨"ENCODE", 0x200, 0x300⟩, ⟨"RESET", 0x300, 0x3FF⟩]

/-- The six rows of format frame_kind, over the key `{ctrl, func}`. -/
def kindRows : List OpcodeRow := [
  ⟨"Discovery", 0x0000, 0xFFFF⟩, ⟨"AllocateAddress", 0x0001, 0xFFFF⟩, ⟨"InformationRequest", 0x0102, 0xFFFF⟩,
  ⟨"RegistrationRequest", 0x0080, 0xFFFF⟩, ⟨"RegistrationConfirmation", 0x0081, 0xFFFF⟩,
  ⟨"InformationResponse", 0x0181, 0xFFFF⟩]

/-- A word lies in a row. -/
def OpcodeRow.covers (r : OpcodeRow) (w : Nat) : Bool := w &&& r.mask == r.pattern

/-! ### A bare table word -/

/-- The least payload length of a frame kind, for a word whose operands are all zero. -/
def kindZeroLength (w : Nat) : Nat :=
  if w = 0x0001 then 11 else if w = 0x0080 then 10 else if w = 0x0181 then 44 else 0

/-- A frame kind with all operands zero. -/
def zeroFrame (w : Nat) : FrameDesc :=
  { key := BitVec.ofNat 16 w, payload := List.replicate (kindZeroLength w) 0 }

/-- A command word with all operand ports zero; the payload port carries the `n` octets the word asks for. -/
def zeroPorts (w : Nat) : Ports :=
  { cmd := BitVec.ofNat 10 w, encPayload := List.replicate (w % 256) 0 }

/-- What a bare word of the opcode table stands for, all operands zero. The table's two formats share their numbers:
a word of more than 10 bits that is a nonzero frame-kind key is read as that key, every other word below 2^10 as a
command word (so 0 is TICK, not Discovery), and the rest as a key, which the decoder rejects (log entry 8). -/
def tableItem (nbits w : Nat) : HostItem :=
  if 10 < nbits ∧ w ≠ 0 ∧ kindRows.any (fun r => r.covers w) then .frame (zeroFrame w)
  else if w < 2 ^ 10 then .command (zeroPorts w)
  else .frame (zeroFrame w)

/-- The instruction the decoder reads from a bare word of the opcode table (`none`: rejected). -/
def decodeTableWord (nbits w : Nat) : Option Instr :=
  match decode (tableItem nbits w) with
  | .ok i => some i
  | .invalid _ => none

end Sys2Proof
end

