-- ==== Sys2Proof/Machine/State.lean ====
section
/-! DEFINITION. The state of the block (R19 to R25), its output and input ports (R43), the reasons a step can stop,
and the state right after reset (R87, R88). Plain data throughout. -/

namespace Sys2Proof.Machine

/-- The three states of the assembler (R19). The fourth code 0b11 cannot be written down (U4). -/
inductive AsmState where
  /-- `WaitingForSync`. -/
  | wfs
  /-- `ReceivingHeader`. -/
  | rh
  /-- `ReceivingPayloadAndChecksum`. -/
  | rp
  deriving DecidableEq, Repr

/-- The fields of a valid frame: `ev_info` of FRAME (R66, R70). -/
structure FrameFields where
  src : Half
  dst : Half
  ctrl : Byte
  func : Byte
  len : Byte
  payload : List Byte
  cs : Half
  deriving DecidableEq, Repr

/-- What a step puts on `ev` and `ev_info` (R70). -/
inductive Event where
  /-- NONE: nothing to report. -/
  | noEvent
  /-- FRAME: a frame's last octet arrived and its checksum matched (R66). -/
  | frame (fields : FrameFields)
  /-- CHECKSUM_MISMATCH: the received and the computed checksum (R71). -/
  | checksumMismatch (cRx cCalc : Half)
  /-- FRAME_TIMEOUT: the state that was aborted, and `idx` (R72). -/
  | frameTimeout (state : AsmState) (octets : BitVec 9)
  /-- BUFFER_OVERFLOW_RISK: the declared length (R73). -/
  | bufferOverflowRisk (len : Byte)
  deriving DecidableEq, Repr

/-- The octets of the receive buffer that the block has written, by rising index. An index not listed holds no value
that the block has written; what a read then gives is `State.bufAt`'s free value (log entry 4). -/
abbrev Memory := List Host.Cell

/-- The state. -/
structure State where
  /-- The parameters of R6. No step writes them (R25, R89; log entry 1). -/
  params : Params
  /-- The assembler state register (R19). -/
  st : AsmState
  /-- The partial-sync flag (R20). -/
  sp : Bool
  /-- The receive buffer (R21). -/
  buf : Memory
  /-- The buffer index (R22). -/
  idx : BitVec 9
  /-- The payload-and-checksum countdown (R23). -/
  rem : BitVec 9
  /-- The stall time stamp, below `2 ^ CLOCK_W` (R24; log entry 9). -/
  tl : Nat
  /-- The event output of the most recent step (R70, R75; log entry 6). -/
  ev : Event
  /-- The transmit output of the most recent step, empty unless it was an ENCODE (R15, R43). -/
  tx : List Byte
  /-- `tx_len` of the most recent step, `none` where the port is not valid (R43, R50). -/
  txLen : Option (BitVec 9)
  /-- What the host presents, oldest first (R16, R42; log entry 5). -/
  inbox : List HostItem
  /-- THE MODEL'S OWN: how many times RESET has left registers unspecified (log entry 3). -/
  draws : Nat
  deriving DecidableEq, Repr

/-- Why a step faults. No step from a state that satisfies the invariant of R27 does. -/
inductive Fault where
  /-- A BYTE in RH or RP would write `buf[index]` with `index ≥ BUF_CAP`, an element that does not exist (R21, R30).
  Raised by `storeOctet`. Safe: R30 says the write does not happen (log entry 10). -/
  | bufferOverrun (index : Nat)
  deriving DecidableEq, Repr

/-- Why a step is refused. -/
inductive Refusal where
  /-- An instruction without a meaning. Raised by `exec`'s refused arms: none is left. Safe. -/
  | notModelled (mnemonic : String)
  /-- The decoder rejects what the host presents: a reserved command word (R44: "the model takes no step for it"), or
  an entry that is no instruction. Raised by `step`. Safe (log entries 13 and 14). -/
  | invalid (e : DecodeError)
  /-- `decode` applied to a raw frame whose length is not `9 + raw[6]` (R52, D19, U7: refused). Raised by the
  completing BYTE, never from a state that satisfies R27. Safe (log entry 11). -/
  | rawFrameLength (length : Nat)
  /-- A term of `Instr` that no word encodes. Raised by the meanings with lengths; `step` never runs one. Safe (log
  entry 12). -/
  | illFormed
  deriving DecidableEq, Repr

/-- The state after power-on, which "is the same as RESET" (R87, R88): `st = WFS`, `sp = 0`. The registers R87 leaves
unspecified hold the values of log entry 2; the parameters are any (log entry 1); no step has been taken (log entry 6)
and nothing is presented (log entry 5). -/
def State.reset : State where
  params := Config.params
  st := .wfs
  sp := false
  buf := []
  idx := 0#9
  rem := 0#9
  tl := 0
  ev := .noEvent
  tx := []
  txLen := none
  inbox := []
  draws := 0

end Sys2Proof.Machine
end

