-- ==== Sys2Proof/Machine/Operands.lean ====
section
/-! DEFINITION. Operand forms: how 16-bit fields are made of octets (R31, R38), the 16-bit sum and the clock
difference (R9), and the layout of a wire frame (R37). -/

namespace Sys2Proof.Machine

/-- `v[15:8]` (R8). -/
def hiOctet (v : Half) : Byte := v.extractLsb' 8 8

/-- `v[7:0]` (R8). -/
def loOctet (v : Half) : Byte := v.extractLsb' 0 8

/-- `{hi, lo}`: a 16-bit field from its two octets, high octet first (R8, R31, R38). -/
def be16 (hi lo : Byte) : Half := (hi ++ lo : BitVec 16)

/-- The two octets of a field in wire order, high octet first (R31). -/
def octets16 (v : Half) : List Byte := [hiOctet v, loOctet v]

/-- `sum16(s) = (Σ s[i]) mod 2^16` (R9). -/
def sum16 (s : List Byte) : Half := BitVec.ofNat 16 (s.map BitVec.toNat).sum

/-- `elapsed(now, t) = (now - t) mod 2^CLOCK_W`, the non-negative remainder of the exact difference (R9). -/
def elapsed (clockW now t : Nat) : Nat := (((now : Int) - (t : Int)) % ((2 ^ clockW : Nat) : Int)).toNat

/-- The value the clock input carries: its low `CLOCK_W` bits (R43; log entry 9). -/
def clockPort (clockW now : Nat) : Nat := now % 2 ^ clockW

/-- The octets of a frame from its first sync octet through its last payload octet (R37). -/
def summedOctets (src dst : Half) (ctrl func : Byte) (payload : List Byte) : List Byte :=
  [sync0, sync1] ++ octets16 src ++ octets16 dst ++ [ctrl, func, lengthOctet payload] ++ payload

/-- A frame on the wire: `11 + L` octets, the checksum last and high octet first (R37, R48). -/
def wireFrame (src dst : Half) (ctrl func : Byte) (payload : List Byte) : List Byte :=
  summedOctets src dst ctrl func payload ++ octets16 (sum16 (summedOctets src dst ctrl func payload))

/-- Octet `i` of a raw frame (R38). -/
def rawOctet (raw : List Byte) (i : Nat) : Byte := raw.getD i 0

/-- The 2-octet field at raw index `i` (R38). -/
def rawField (raw : List Byte) (i : Nat) : Half := be16 (rawOctet raw i) (rawOctet raw (i + 1))

end Sys2Proof.Machine
end

