-- ==== Sys2Proof/Machine/Flags.lean ====
section
/-! DEFINITION. The flag and the codes: the partial-sync flag of WFS (R59), the code of `st` (R19) and of `ev` (R70). -/

namespace Sys2Proof.Machine

/-- The octet completes the sync pattern: "second octet of 55 AA" (R59). -/
def syncCompletes (sp : Bool) (b : Byte) : Bool := sp && b == sync1

/-- The new `sp` of an octet that does not complete the sync: "every octet is tested as a possible first sync octet"
(R59, D4). -/
def partialSync (b : Byte) : Bool := b == sync0

/-- The 2-bit code of an assembler state (R19, D23). -/
def AsmState.code : AsmState → BitVec 2
  | .wfs => 0b00
  | .rh => 0b01
  | .rp => 0b10

/-- The 3-bit code on `ev` (R70, D16). -/
def Event.code : Event → BitVec 3
  | .noEvent => 0
  | .frame _ => 1
  | .checksumMismatch _ _ => 2
  | .frameTimeout _ _ => 3
  | .bufferOverflowRisk _ => 4

end Sys2Proof.Machine
end

