-- ==== Sys2Proof/Machine/Ops.lean ====
section
/-! DEFINITION. The named operations that the meanings share: the receive buffer, the output ports, the return to
WaitingForSync, and what takes the place of a trap (R77). -/

namespace Sys2Proof.Machine

/-- What a meaning answers. -/
abbrev Result := Host.Outcome State Fault Refusal

/-! ### The receive buffer (R21, R28 to R30) -/

/-- The octet listed at an index, if any. -/
def Memory.read : Memory → Nat → Option Byte
  | [], _ => none
  | c :: m, i => if c.1 = i then some c.2 else Memory.read m i

/-- List an octet at an index, keeping the indices strictly rising. -/
def Memory.write : Memory → Nat → Byte → Memory
  | [], i, b => [(i, b)]
  | c :: m, i, b =>
    if i < c.1 then (i, b) :: c :: m
    else if i = c.1 then (i, b) :: m
    else c :: Memory.write m i b

/-- The canonical form: indices strictly rising. An unlisted index has no written value, so no entry is redundant. -/
abbrev Memory.wf (m : Memory) : Prop := m.Pairwise (fun c d => c.1 < d.1)

/-- Every listed index is an element of the buffer (R21). -/
abbrev Memory.within (m : Memory) (cap : Nat) : Prop := ∀ c ∈ m, c.1 < cap

/-- `MemRead(i, 1)`: the octet in `buf[i]` (R12). An element the block has not written since the last RESET holds a
FREE VALUE (R21, U2; log entry 4). -/
def State.bufAt (s : State) (i : Nat) : Byte := (s.buf.read i).getD (Config.freeByte s.draws i)

/-- `MemRead(i, 2)`: a big-endian read of two octets (R12). -/
def State.bufField (s : State) (i : Nat) : Half := be16 (s.bufAt i) (s.bufAt (i + 1))

/-- `buf[a .. a+n-1]` (R10). -/
def State.bufSlice (s : State) (a n : Nat) : List Byte := (List.range n).map (fun k => s.bufAt (a + k))

/-- `buf[0..idx-1]`, the raw frame received so far (R30, R63). -/
def State.raw (s : State) : List Byte := s.bufSlice 0 s.idx.toNat

/-- `buf[idx] <- b; idx <- idx + 1; tl <- now`: an octet is accepted (R60, R62, R67). -/
def State.accept (b : Byte) (now : Nat) (s : State) : State :=
  { s with
    buf := s.buf.write s.idx.toNat b
    idx := s.idx + 1#9
    tl := clockPort s.params.clockW now }

/-- Accept an octet where the buffer has the element, and go on; an index past the end faults (R30; log entry 10). -/
def storeOctet (b : Byte) (now : Nat) (s : State) (next : State → Result) : Result :=
  if s.idx.toNat < s.params.bufCap then next (s.accept b now) else .fault (.bufferOverrun s.idx.toNat)

/-- What the host presents next (R16, R42; log entry 5). -/
def State.present (q : List HostItem) (s : State) : State := { s with inbox := q }

/-! ### The output ports (R43, R70, R75) -/

/-- The outputs at the start of a step: no event, nothing to transmit. An event of an earlier step is gone (R75). -/
def State.quiet (s : State) : State := { s with ev := .noEvent, tx := [], txLen := none }

/-- `raise <Event>(info)` and `emit FRAME(fields)`: put the event on this step's output (R12). -/
def State.raise (e : Event) (s : State) : State := { s with ev := e }

/-- `Output(w)` and `tx_len <- len(w)` (R12, R50). -/
def State.output (w : List Byte) (s : State) : State :=
  { s with tx := w, txLen := some (BitVec.ofNat 9 w.length) }

/-! ### The transitions of the assembler -/

/-- `GoWFS()`: back to WaitingForSync, with no partial match. `buf`, `idx`, `rem` and `tl` are not written (R64). -/
def State.goWFS (s : State) : State := { s with st := .wfs, sp := false }

/-- The sync pattern is complete: start a header (R59). -/
def State.enterRH (now : Nat) (s : State) : State :=
  { s with sp := false, st := .rh, idx := 0#9, tl := clockPort s.params.clockW now }

/-- The declared length is accepted: count down `L + 2` octets (R61). -/
def State.enterRP (len : Byte) (s : State) : State :=
  { s with rem := BitVec.ofNat 9 (len.toNat + csLen), st := .rp }

/-- `rem <- rem - 1` (R62). -/
def State.countDown (s : State) : State := { s with rem := s.rem - 1#9 }

/-- `sp <- f` (R59). -/
def State.setSp (f : Bool) (s : State) : State := { s with sp := f }

/-- What RESET leaves unspecified: `buf`, `idx`, `rem` and `tl` hold free values, new at every RESET (R86; log
entry 3). -/
def State.forget (s : State) : State :=
  { s with
    buf := []
    idx := Config.freeIdx (s.draws + 1)
    rem := Config.freeRem (s.draws + 1)
    tl := clockPort s.params.clockW (Config.freeTl (s.draws + 1))
    draws := s.draws + 1 }

/-! ### Errors: what takes the place of a trap -/

/-- An error condition: "It is `GoWFS()` plus the event. No state is saved. No mode changes. Control does not go to any
vector or handler" (R77). There is no return from it (R78). -/
def State.abort (e : Event) (s : State) : State := s.goWFS.raise e

/-- More than the stall window has passed since the last progress of a frame (R57, D7, D8). -/
def State.stalled (now : Nat) (s : State) : Bool :=
  s.st != .wfs && decide (stallMs < elapsed s.params.clockW now s.tl)

/-- `StallCheck(now)` (R57). -/
def State.stallCheck (now : Nat) (s : State) : State :=
  if s.stalled now then s.abort (.frameTimeout s.st s.idx) else s

end Sys2Proof.Machine
end

