-- ==== Sys2Proof/Machine/Codec.lean ====
section
/-! DEFINITION. The frame codec: the checksum of a raw frame (R48), `decode` (R51, R52), the running accumulator an
implementation may keep (R54), and the meaning of ENCODE (R50). -/

namespace Sys2Proof.Machine

/-- `CS(w)`: the checksum of a frame from its wire octets, `w[0..8+L]` summed, where `L` is `w[8]` (R48). -/
def checksumWire (w : List Byte) : Half := sum16 (w.take (9 + (rawOctet w 8).toNat))

/-- `CS_raw(raw)`: the checksum of a frame from its raw octets, the two sync octets put before `raw[0..6+L]` (R48). -/
def checksumRaw (raw : List Byte) : Half :=
  sum16 ([sync0, sync1] ++ raw.take (hdrLen + (rawOctet raw 6).toNat))

/-- What `decode` returns (R51). -/
inductive Validation where
  | ok (fields : FrameFields)
  | mismatch (cRx cCalc : Half)
  deriving DecidableEq, Repr

/-- The fields of a raw frame (R51). -/
def rawFields (raw : List Byte) : FrameFields where
  src := rawField raw 0
  dst := rawField raw 2
  ctrl := rawOctet raw 4
  func := rawOctet raw 5
  len := rawOctet raw 6
  payload := (raw.drop hdrLen).take (rawOctet raw 6).toNat
  cs := rawField raw (hdrLen + (rawOctet raw 6).toNat)

/-- `decode(raw)` on a raw frame of the right length (R51). -/
def validate (raw : List Byte) : Validation :=
  if (rawFields raw).cs ≠ checksumRaw raw then .mismatch (rawFields raw).cs (checksumRaw raw)
  else .ok (rawFields raw)

/-- `decode(raw)`, refused (`none`) unless `len(raw) = 9 + raw[6]` (R52, D19). -/
def decodeRaw (raw : List Byte) : Option Validation :=
  if hdrLen ≤ raw.length ∧ raw.length = hdrLen + csLen + (rawOctet raw 6).toNat then some (validate raw) else none

/-- The running accumulator: 0x00FF on entering RH, then each accepted octet added mod 2^16 (R54). -/
def runningSum (octets : List Byte) : Half := octets.foldl (fun acc b => acc + b.setWidth 16) 0x00FF#16

/-- `ENCODE(dst, ctrl, func, n, payload)` with `n` the payload's length: the frame goes to the transmit output and no
register is read or written (R50, R55, D20). -/
def encodeFrame (dst : Half) (ctrl func : Byte) (payload : List Byte) (s : State) : Result :=
  if payloadFits payload then .next (s.quiet.output (wireFrame s.params.masterId dst ctrl func payload))
  else .refused .illFormed

/-- ENCODE (R50). -/
def execEncode (dst : Half) (ctrl func : Byte) (payload : List Byte) (s : State) : Result :=
  encodeFrame dst ctrl func payload s

end Sys2Proof.Machine
end

