-- ==== Sys2Proof/Machine/Receive.lean ====
section
/-! DEFINITION. The receive assembler: the procedures of R57 to R65, and the meanings of BYTE and TICK. -/

namespace Sys2Proof.Machine

/-- `ByteWFS(b, now)`: sync detection (R59). -/
def byteWFS (b : Byte) (now : Nat) (s : State) : State :=
  if syncCompletes s.sp b then s.enterRH now else s.setSp (partialSync b)

/-- `LengthCheck(L)`: the buffer-capacity check on the declared payload length (R61, D12). -/
def lengthCheck (len : Byte) (s : State) : State :=
  if s.params.bufCap < hdrLen + csLen + len.toNat then s.abort (.bufferOverflowRisk len) else s.enterRP len

/-- `ByteRH(b, now)`: a header octet, the seventh being the payload length (R60). -/
def byteRH (b : Byte) (now : Nat) (s : State) : Result :=
  storeOctet b now s fun s => .next (if s.idx = 7#9 then lengthCheck b s else s)

/-- `Complete()`: validate the frame and hand it on (R63). -/
def complete (s : State) : Result :=
  match decodeRaw s.raw with
  | none => .refused (.rawFrameLength s.raw.length)
  | some (.ok fields) => .next (s.goWFS.raise (.frame fields))
  | some (.mismatch cRx cCalc) => .next (s.abort (.checksumMismatch cRx cCalc))

/-- `ByteRP(b, now)`: a payload or checksum octet (R62). -/
def byteRP (b : Byte) (now : Nat) (s : State) : Result :=
  storeOctet b now s fun s => if s.rem - 1#9 = 0#9 then complete s.countDown else .next s.countDown

/-- The octet is taken in the state the stall check leaves (R58). -/
def byteIn (b : Byte) (now : Nat) (s : State) : Result :=
  match s.st with
  | .wfs => .next (byteWFS b now s)
  | .rh => byteRH b now s
  | .rp => byteRP b now s

/-- One BYTE step: the stall check, then the octet (R58, D9). -/
def byteStep (b : Byte) (now : Nat) (s : State) : Result := byteIn b now (s.quiet.stallCheck now)

/-- BYTE (R58). -/
def execByte (b : Byte) (now : Nat) (s : State) : Result := byteStep b now s

/-- TICK: the stall check alone (R65). -/
def execTick (now : Nat) (s : State) : Result := .next (s.quiet.stallCheck now)

end Sys2Proof.Machine
end

