-- ==== Sys2Proof/Machine/Kinds.lean ====
section
/-! DEFINITION. The frame kinds of R41. The block does not decode them: an outbound kind is the ENCODE of its frame
(R50, R56), an inbound kind is its frame presented octet by octet (R46, R58; log entry 7). -/

namespace Sys2Proof.Machine

/-- `BYTES w @ t0 +d` (R46): this step is the BYTE of the first octet, and the BYTEs of the others are what the host
presents next, one octet per step (R33). -/
def presentBytes (w : List Byte) (t0 d : Nat) (s : State) : Result :=
  match w with
  | [] => .next s.quiet
  | b :: bs => byteStep b t0 (s.present (bytesAt bs (t0 + d) d ++ s.inbox))

/-- Discovery (R41, R56). -/
def execDiscovery (s : State) : Result := encodeFrame 0 0x00 0x00 [] s

/-- AllocateAddress: the serial identifier and the allocated address as payload (R41, R56). -/
def execAllocateAddress (serial : List Byte) (address : Byte) (s : State) : Result :=
  if serialFits serial then encodeFrame 0 0x00 0x01 (serial ++ [address]) s else .refused .illFormed

/-- InformationRequest (R41, R56). -/
def execInformationRequest (target : Half) (s : State) : Result := encodeFrame target 0x01 0x02 [] s

/-- Registration request (R41, R58). -/
def execRegistrationRequest (src dst : Half) (serial : List Byte) (t0 d : Nat) (s : State) : Result :=
  if serialFits serial then presentBytes (wireFrame src dst 0x00 0x80 serial) t0 d s else .refused .illFormed

/-- Registration confirmation (R41, R58). -/
def execRegistrationConfirmation (src dst : Half) (payload : List Byte) (t0 d : Nat) (s : State) : Result :=
  if payloadFits payload then presentBytes (wireFrame src dst 0x00 0x81 payload) t0 d s else .refused .illFormed

/-- Information response (R41, R58). -/
def execInformationResponse (src dst : Half) (payload : List Byte) (t0 d : Nat) (s : State) : Result :=
  if telemetryFits payload then presentBytes (wireFrame src dst 0x01 0x81 payload) t0 d s else .refused .illFormed

end Sys2Proof.Machine
end

