-- ==== Sys2Proof/Machine/System.lean ====
section
/-! DEFINITION. RESET (R86). -/

namespace Sys2Proof.Machine

/-- RESET: `st <- WFS`, `sp <- 0`; `buf`, `idx`, `rem` and `tl` unspecified; no event and no stall check (R86, D18). -/
def execReset (s : State) : Result := .next s.quiet.goWFS.forget

end Sys2Proof.Machine
end

