-- ==== Sys2Proof/Machine/Dispatch.lean ====
section
/-! DEFINITION. The one dispatch: an arm per constructor of Instr. -/

namespace Sys2Proof.Machine

/-- The meaning of an instruction. -/
def exec (i : Instr) (s : State) : Host.Outcome State Fault Refusal :=
  match i with
  | .tick now => Sys2Proof.Machine.execTick now s
  | .byte b now => Sys2Proof.Machine.execByte b now s
  | .encode dst ctrl func payload => Sys2Proof.Machine.execEncode dst ctrl func payload s
  | .reset => Sys2Proof.Machine.execReset s
  | .discovery => Sys2Proof.Machine.execDiscovery s
  | .allocateAddress serial address => Sys2Proof.Machine.execAllocateAddress serial address s
  | .informationRequest target => Sys2Proof.Machine.execInformationRequest target s
  | .registrationRequest src dst serial t0 d => Sys2Proof.Machine.execRegistrationRequest src dst serial t0 d s
  | .registrationConfirmation src dst payload t0 d => Sys2Proof.Machine.execRegistrationConfirmation src dst payload t0 d s
  | .informationResponse src dst payload t0 d => Sys2Proof.Machine.execInformationResponse src dst payload t0 d s

end Sys2Proof.Machine
end

