-- ==== Sys2Proof/Machine/Step.lean ====
section
/-! DEFINITION. One step: take the oldest entry the host presents, decode it, run it (R15, R42). -/

namespace Sys2Proof.Machine

/-- One step. With nothing presented the block "does nothing between steps" (R85): every register keeps its value and
the outputs carry no event (log entries 5 and 6). An entry the decoder rejects takes no step (R44). -/
def step (s : State) : Host.Outcome State Fault Refusal :=
  match s.inbox with
  | [] => .next s.quiet
  | item :: rest =>
    match decode item with
    | .ok i => exec i (s.present rest)
    | .invalid e => .refused (.invalid e)

/-- `s` with the instruction of a bare table word, operands zero, as the next entry the host presents. -/
def State.withFetchWord (s : State) (nbits w : Nat) : State :=
  s.present (tableItem nbits w :: s.inbox)

end Sys2Proof.Machine
end

