-- ==== Sys2Proof/Safety.lean ====
section
/-! DEFINITION. What claims speak of: the invariant of R27, the form of the buffer and of the time stamp, which
registers are live, runs of instructions and what the host observes of a run (R16). -/

namespace Sys2Proof.Machine

/-- The declared payload length of the frame being received, `buf[6]` (R27, R29). -/
def State.declaredLen (s : State) : Nat := (s.bufAt 6).toNat

/-- The invariant of R27. -/
abbrev State.Inv (s : State) : Prop :=
  (s.st ≠ .wfs → s.sp = false) ∧
  (s.st = .rh → s.idx.toNat ≤ 6) ∧
  (s.st = .rp →
    (7 ≤ s.idx.toNat ∧ s.idx.toNat ≤ 8 + s.declaredLen) ∧
    s.rem.toNat = 9 + s.declaredLen - s.idx.toNat ∧
    (1 ≤ s.rem.toNat ∧ s.rem.toNat ≤ s.declaredLen + 2) ∧
    9 + s.declaredLen ≤ s.params.bufCap)

/-- The buffer is in canonical form and lists elements it has (R21). -/
abbrev State.BufOk (s : State) : Prop := s.buf.wf ∧ s.buf.within s.params.bufCap

/-- The time stamp is `CLOCK_W` bits wide (R24). -/
abbrev State.ClockOk (s : State) : Prop := s.tl < 2 ^ s.params.clockW

/-- A reset state: R87's "set of all states with `st = WFS` and `sp = 0`". -/
abbrev State.IsReset (s : State) : Prop := s.st = .wfs ∧ s.sp = false

/-- The states that the block can come to from a reset state, by whatever instructions the host presents (R16), the
idle step of an empty inbox included (log entry 5). -/
inductive Reachable : State → Prop where
  | reset {s : State} (h : s.IsReset) : Reachable s
  | present {s : State} (q : List HostItem) (h : Reachable s) : Reachable { s with inbox := q }
  | exec {s t : State} (i : Instr) (h : Reachable s) (hx : exec i s = .next t) : Reachable t
  | step {s t : State} (h : Reachable s) (hx : step s = .next t) : Reachable t

/-- The octet that a step of an instruction takes: BYTE's, or the first sync octet of an inbound kind. -/
def octetTaken : Instr → Option Byte
  | .byte b _ => some b
  | .registrationRequest _ _ _ _ _ => some 0x55#8
  | .registrationConfirmation _ _ _ _ _ => some 0x55#8
  | .informationResponse _ _ _ _ _ => some 0x55#8
  | .tick _ => none
  | .encode _ _ _ _ => none
  | .reset => none
  | .discovery => none
  | .allocateAddress _ _ => none
  | .informationRequest _ => none

/-- The clock value that a step of an instruction compares with the time stamp: BYTE's and TICK's (R57). -/
def clockUsed : Instr → Option Nat
  | .tick now => some now
  | .byte _ now => some now
  | .registrationRequest _ _ _ t0 _ => some t0
  | .registrationConfirmation _ _ _ t0 _ => some t0
  | .informationResponse _ _ _ t0 _ => some t0
  | .encode _ _ _ _ => none
  | .reset => none
  | .discovery => none
  | .allocateAddress _ _ => none
  | .informationRequest _ => none

/-- Two states that agree on the parameters, on what the host presents and on every LIVE register: in WFS, `buf`, `idx`,
`rem` and `tl` are dead; in RH and RP only `buf[0..idx-1]` is live; `rem` is live in RP only (R26, R27, U3). -/
abbrev SameLive (s t : State) : Prop :=
  s.params = t.params ∧ s.inbox = t.inbox ∧ s.st = t.st ∧ s.sp = t.sp ∧
  (s.st ≠ .wfs → s.idx = t.idx ∧ s.tl = t.tl ∧ ∀ i < s.idx.toNat, s.bufAt i = t.bufAt i) ∧
  (s.st = .rp → s.rem = t.rem)

/-- Two states carry the same outputs. -/
abbrev SameOutputs (s t : State) : Prop := s.ev = t.ev ∧ s.tx = t.tx ∧ s.txLen = t.txLen

/-- Run instructions one after the other and collect their events; `none` if one of them does not complete. -/
def runInstrs : List Instr → State → Option (State × List Event)
  | [], s => some (s, [])
  | i :: is, s =>
    match exec i s with
    | .next t => (runInstrs is t).map fun r => (r.1, t.ev :: r.2)
    | .fault _ => none
    | .refused _ => none

/-- The octets that a sequence of instructions presents (BYTE alone presents one). -/
def octetsOf (is : List Instr) : List Byte :=
  is.filterMap fun i => match i with
    | .byte b _ => some b
    | _ => none

/-- What R53 asks of the steps that present one frame: BYTE steps, with TICK or ENCODE steps between them, none of
whose `now`, from the second octet on, is more than `STALL_MS` after the last octet accepted. `seen` octets have been
presented, the last at `last`. -/
def Timely (clockW : Nat) : (seen last : Nat) → List Instr → Prop
  | _, _, [] => True
  | seen, last, .byte _ now :: is =>
    (2 ≤ seen → elapsed clockW now last ≤ stallMs) ∧ Timely clockW (seen + 1) now is
  | seen, last, .tick now :: is => (2 ≤ seen → elapsed clockW now last ≤ stallMs) ∧ Timely clockW seen last is
  | seen, last, .encode _ _ _ payload :: is => payload.length ≤ lenMax ∧ Timely clockW seen last is
  | _, _, _ :: _ => False

/-- What the host observes of at most `k` commands: "the sequence of `(event, tx)` pairs the steps produce" (R16). -/
def observe : Nat → State → List (Event × List Byte)
  | 0, _ => []
  | k + 1, s =>
    match s.inbox, step s with
    | _ :: _, .next t => (t.ev, t.tx) :: observe k t
    | _, _ => []

end Sys2Proof.Machine
end

