-- ==== Sys2Proof/Certificates/Slice0/Obligations.lean ====
section
/-! DEFINITION. The statements for the provers. A docstring names the rule of spec/ that a statement formalises, and the
spec's decision (D<n>) or the model's log entry it rests on. -/

open Sys2Proof Sys2Proof.Machine

/-! ## Encodings -/

/-- R42's table and R44's reserved words (the spec's decision D2): what every command word decodes to; a reserved word
is refused and no step is taken. -/
def Obligations.CommandWordsDecodeAsTabled : Prop :=
  decodeCommandWord 0x000#10 = some .tick ∧
  (∀ b : Byte, decodeCommandWord (0b01#2 ++ b : BitVec 10) = some (.byte b)) ∧
  (∀ n : Byte, decodeCommandWord (0b10#2 ++ n : BitVec 10) = some (.encode n)) ∧
  decodeCommandWord 0x300#10 = some .reset ∧
  (∀ arg : Byte, arg ≠ 0#8 →
    decodeCommandWord (0b00#2 ++ arg : BitVec 10) = none ∧ decodeCommandWord (0b11#2 ++ arg : BitVec 10) = none) ∧
  (∀ (s : State) (p : Ports) (rest : List HostItem), decodeCommandWord p.cmd = none → s.inbox = .command p :: rest →
    step s = .refused (.invalid (.reservedCommand p.cmd)))

/-- R44 (D2): 510 of the 1024 command words are reserved, 256 are BYTE, 256 are ENCODE, one is TICK and one RESET. -/
def Obligations.ReservedCommandWordsNumber510 : Prop :=
  ((List.range 1024).filter fun w => decodeCommandWord (BitVec.ofNat 10 w) == none).length = 510 ∧
  ((List.range 1024).filter fun w => (256 ≤ w && w < 512) &&
    decodeCommandWord (BitVec.ofNat 10 w) == some (.byte (BitVec.ofNat 8 w))).length = 256 ∧
  ((List.range 1024).filter fun w => (512 ≤ w && w < 768) &&
    decodeCommandWord (BitVec.ofNat 10 w) == some (.encode (BitVec.ofNat 8 w))).length = 256 ∧
  ((List.range 1024).filter fun w => decodeCommandWord (BitVec.ofNat 10 w) == some .tick) = [0x000] ∧
  ((List.range 1024).filter fun w => decodeCommandWord (BitVec.ofNat 10 w) == some .reset) = [0x300]

/-- Words written out from R41 and R42 (V-CM-1 to V-CM-7 of 95_test_vectors.md, D2, and three keys of R41) decode to the
instructions they stand for. A sanity statement. That ENCODE reads its payload port so is the model's entry 13; that a
key is an instruction, with these fields, is the model's entries 7 and 14. -/
def Obligations.SampleWordsDecode : Prop :=
  decode (.command { cmd := 0b0000000000#10, now := 9 }) = .ok (.tick 9) ∧
  decode (.command { cmd := 0b0000000001#10 }) = .invalid (.reservedCommand 0x001#10) ∧
  decode (.command { cmd := 0b0101010101#10, now := 9 }) = .ok (.byte 0x55#8 9) ∧
  decode (.command {
    cmd := 0b1000001010#10, encDst := 5, encCtrl := 1, encFunc := 2
    encPayload := [10, 11, 12, 13, 14, 15, 16, 17, 18, 19] }) =
    .ok (.encode 5 1 2 [10, 11, 12, 13, 14, 15, 16, 17, 18, 19]) ∧
  decode (.command { cmd := 0b1100000000#10 }) = .ok .reset ∧
  decode (.command { cmd := 0b1111111111#10 }) = .invalid (.reservedCommand 0x3FF#10) ∧
  decode (.command { cmd := 0b0011111111#10 }) = .invalid (.reservedCommand 0x0FF#10) ∧
  decode (.frame { key := 0x0000#16 }) = .ok .discovery ∧
  decode (.frame { key := 0x0102#16, dst := 5 }) = .ok (.informationRequest 5) ∧
  decode (.frame { key := 0x0081#16, src := 3, payload := [0xD4], t0 := 1, d := 2 }) =
    .ok (.registrationConfirmation 3 0 [0xD4] 1 2)

/-- Every well-formed instruction is read back from its encoding, with every operand at every value it admits (the
encodings of R41 and R42). -/
def Obligations.DecodeOfEncodeIsIdentity : Prop :=
  ∀ i : Instr, i.wf = true → decode (encode i) = .ok i

/-- A command word has one meaning and that meaning has no other word: encoding what a word decodes to gives the word
(R42, R44; D2). -/
def Obligations.EncodeOfDecodedCommandWord : Prop :=
  ∀ (w : BitVec 10) (c : Command), decodeCommandWord w = some c → encodeCommandWord c = w

/-- The decoder answers well-formed instructions only: lengths are within the encodings of R37 and R41. -/
def Obligations.DecodedInstructionsAreWellFormed : Prop :=
  ∀ (item : HostItem) (i : Instr), decode item = .ok i → i.wf = true

/-- R46 (D24): the command word of each line of a program, with the clock value it is applied at and ENCODE's ports; BYTES
stands for one BYTE per octet, octet `k` at `t0 + k*d`, `d` being 1 where it is omitted; a program is its lines, in
order. -/
def Obligations.BytesExpandToOneBytePerOctet : Prop :=
  (∀ t : Nat, AsmLine.assemble (.tick t) = [.command { cmd := 0x000#10, now := t }]) ∧
  (∀ (b : Byte) (t : Nat), AsmLine.assemble (.byte b t) =
    [.command { cmd := BitVec.ofNat 10 (0x100 + b.toNat), now := t }]) ∧
  (∀ (dst : Half) (ctrl func : Byte) (payload : List Byte) (t : Nat), payload.length ≤ 255 →
    AsmLine.assemble (.encode dst ctrl func payload t) = [.command {
      cmd := BitVec.ofNat 10 (0x200 + payload.length), now := t
      encDst := dst, encCtrl := ctrl, encFunc := func, encPayload := payload }]) ∧
  (∀ t : Nat, AsmLine.assemble (.reset t) = [.command { cmd := 0x300#10, now := t }]) ∧
  (∀ (hs : List Byte) (t0 d : Nat),
    AsmLine.assemble (.bytes hs t0 (some d)) = bytesAt hs t0 d ∧
    AsmLine.assemble (.bytes hs t0 none) = bytesAt hs t0 1 ∧
    (bytesAt hs t0 d).length = hs.length ∧
    (∀ k : Nat, k < hs.length → (bytesAt hs t0 d)[k]? =
      some (.command { cmd := BitVec.ofNat 10 (0x100 + (hs.getD k 0).toNat), now := t0 + k * d }))) ∧
  (∀ (line : AsmLine) (lines : List AsmLine), assemble (line :: lines) = line.assemble ++ assemble lines)

/-! ## The step -/

/-- R15, R42, R44: a step runs the instruction that the oldest entry decodes to, with that entry consumed; a rejected
entry takes no step; with nothing presented the block does nothing (R85; the model's entries 5 and 6). -/
def Obligations.StepRunsDecodedInstruction : Prop :=
  (∀ (s : State) (item : HostItem) (rest : List HostItem) (i : Instr),
    s.inbox = item :: rest → decode item = .ok i → step s = exec i { s with inbox := rest }) ∧
  (∀ (s : State) (item : HostItem) (rest : List HostItem) (e : DecodeError),
    s.inbox = item :: rest → decode item = .invalid e → step s = .refused (.invalid e)) ∧
  (∀ s : State, s.inbox = [] → step s = .next { s with ev := .noEvent, tx := [], txLen := none })

/-- A bare table word placed by `withFetchWord` is what the very next step runs (the model's entries 5 and 8). -/
def Obligations.FetchWordRunsTheTableWord : Prop :=
  ∀ (s : State) (nbits w : Nat) (i : Instr), decodeTableWord nbits w = some i →
    step (s.withFetchWord nbits w) = exec i s

/-- R25, R89: no step changes a parameter. -/
def Obligations.ParametersNeverChange : Prop :=
  ∀ s t : State, step s = .next t → t.params = s.params

/-- R75, R94 (D16, D17): no latch. What a step does depends on no output of an earlier step. -/
def Obligations.OutputsAreNotLatched : Prop :=
  ∀ (i : Instr) (s : State) (e : Event) (x : List Byte) (l : Option (BitVec 9)),
    exec i { s with ev := e, tx := x, txLen := l } = exec i s

/-- A term that no word encodes is refused under its own name (the model's entry 12). -/
def Obligations.IllFormedTermsAreRefused : Prop :=
  ∀ (i : Instr) (s : State), i.wf = false → exec i s = .refused .illFormed

/-! ## The codec -/

/-- R31: a 16-bit field is made of two octets, high octet first, in both directions: source, destination and checksum of
the frame that ENCODE transmits; source, destination and checksum that `decode` hands out, and the received checksum of
a mismatch; and a field of the buffer at any index. -/
def Obligations.FieldsAreBigEndian : Prop :=
  (∀ v : Half, (octets16 v).map BitVec.toNat = [v.toNat / 256, v.toNat % 256]) ∧
  (∀ (s : State) (dst : Half) (ctrl func : Byte) (payload : List Byte), payload.length ≤ 255 →
    ∃ t, exec (.encode dst ctrl func payload) s = .next t ∧
      ((t.tx.drop 2).take 4).map BitVec.toNat =
        [s.params.masterId.toNat / 256, s.params.masterId.toNat % 256, dst.toNat / 256, dst.toNat % 256] ∧
      (let cs := sum16 (t.tx.take (9 + payload.length))
       (t.tx.drop (9 + payload.length)).map BitVec.toNat = [cs.toNat / 256, cs.toNat % 256])) ∧
  (∀ (raw : List Byte) (f : FrameFields), decodeRaw raw = some (.ok f) →
    f.src.toNat = (raw.getD 0 0).toNat * 256 + (raw.getD 1 0).toNat ∧
    f.dst.toNat = (raw.getD 2 0).toNat * 256 + (raw.getD 3 0).toNat ∧
    f.cs.toNat =
      (raw.getD (7 + (raw.getD 6 0).toNat) 0).toNat * 256 + (raw.getD (8 + (raw.getD 6 0).toNat) 0).toNat) ∧
  (∀ (raw : List Byte) (cRx cCalc : Half), decodeRaw raw = some (.mismatch cRx cCalc) →
    cRx.toNat =
      (raw.getD (7 + (raw.getD 6 0).toNat) 0).toNat * 256 + (raw.getD (8 + (raw.getD 6 0).toNat) 0).toNat) ∧
  (∀ (s : State) (i : Nat), (s.bufField i).toNat = (s.bufAt i).toNat * 256 + (s.bufAt (i + 1)).toNat)

/-- R40: the sync pattern is 55 AA, and the sum of the 19 octets before the checksum of the §8 frame is 0x03A2. -/
def Obligations.SyncPatternIs55AA : Prop :=
  [sync0, sync1] = [0x55#8, 0xAA#8] ∧
  sum16 [0x55, 0xAA, 0x00, 0x00, 0x00, 0x00, 0x00, 0x80, 0x0A,
    0x53, 0x32, 0x32, 0x31, 0x31, 0x35, 0x31, 0x34, 0x31, 0x35] = 0x03A2#16

/-- R37: the octets of a wire frame, field by field, its length; in the frames the block encodes the source is
MASTER_ID; and the §8 frame. -/
def Obligations.WireFrameLayout : Prop :=
  (∀ (src dst : Half) (ctrl func : Byte) (payload : List Byte), payload.length ≤ 255 →
    let w := wireFrame src dst ctrl func payload
    let L := payload.length
    w.length = 11 + L ∧
    w.getD 0 0 = 0x55#8 ∧ w.getD 1 0 = 0xAA#8 ∧
    be16 (w.getD 2 0) (w.getD 3 0) = src ∧ be16 (w.getD 4 0) (w.getD 5 0) = dst ∧
    w.getD 6 0 = ctrl ∧ w.getD 7 0 = func ∧ (w.getD 8 0).toNat = L ∧
    (w.drop 9).take L = payload ∧
    be16 (w.getD (9 + L) 0) (w.getD (10 + L) 0) = sum16 (w.take (9 + L))) ∧
  (∀ (s : State) (dst : Half) (ctrl func : Byte) (payload : List Byte), payload.length ≤ 255 →
    ∃ t, exec (.encode dst ctrl func payload) s = .next t ∧
      t.tx = wireFrame s.params.masterId dst ctrl func payload) ∧
  wireFrame 0 0 0x00 0x80 [0x53, 0x32, 0x32, 0x31, 0x31, 0x35, 0x31, 0x34, 0x31, 0x35] =
    [0x55, 0xAA, 0x00, 0x00, 0x00, 0x00, 0x00, 0x80, 0x0A,
      0x53, 0x32, 0x32, 0x31, 0x31, 0x35, 0x31, 0x34, 0x31, 0x35, 0x03, 0xA2]

/-- R48: the checksum is the 16-bit truncating sum of every octet from the first sync octet through the last payload
octet; the form over the raw frame is the same value; the checksum is appended high octet first. -/
def Obligations.ChecksumIsTruncatingSumOfFrame : Prop :=
  (∀ (w : List Byte) (L : Nat), L = (w.getD 8 0).toNat → w.length = 11 + L → w.getD 0 0 = 0x55#8 →
    w.getD 1 0 = 0xAA#8 →
    checksumWire w = BitVec.ofNat 16 ((List.range (9 + L)).map fun k => (w.getD k 0).toNat).sum ∧
    checksumRaw (w.drop 2) = checksumWire w ∧
    checksumRaw (w.drop 2) =
      BitVec.ofNat 16 (0x00FF + ((List.range (7 + L)).map fun i => ((w.drop 2).getD i 0).toNat).sum)) ∧
  (∀ (src dst : Half) (ctrl func : Byte) (payload : List Byte), payload.length ≤ 255 →
    (wireFrame src dst ctrl func payload).drop (9 + payload.length) =
      [hiOctet (checksumWire (wireFrame src dst ctrl func payload)),
       loOctet (checksumWire (wireFrame src dst ctrl func payload))])

/-- R49 (b), derived in the spec: the checksum does not depend on the order of the octets. -/
def Obligations.ChecksumIgnoresOctetOrder : Prop :=
  ∀ s t : List Byte, s.Perm t → sum16 s = sum16 t

/-- R49 (c), derived in the spec: the untruncated sum of a frame is at most `1785 + 256 * L`, so that for `L ≤ 249` the
mod 2^16 never changes the value; for every `L` from 250 to 255, with every other summed octet FF, the sum is
`1785 + 256 * L`, exceeds 0xFFFF and is cut; at `L = 255` the checksum is then 0x05F9. -/
def Obligations.ChecksumTruncatesOnlyAbove249 : Prop :=
  (∀ (src dst : Half) (ctrl func : Byte) (payload : List Byte), payload.length ≤ 255 →
    ((summedOctets src dst ctrl func payload).map BitVec.toNat).sum ≤ 1785 + 256 * payload.length ∧
    (payload.length ≤ 249 → (sum16 (summedOctets src dst ctrl func payload)).toNat =
      ((summedOctets src dst ctrl func payload).map BitVec.toNat).sum)) ∧
  (∀ L : Nat, 250 ≤ L → L ≤ 255 →
    let w := summedOctets 0xFFFF 0xFFFF 0xFF 0xFF (List.replicate L 0xFF)
    (w.map BitVec.toNat).sum = 1785 + 256 * L ∧ 0xFFFF < 1785 + 256 * L ∧
    (sum16 w).toNat = 1785 + 256 * L - 65536 ∧ (sum16 w).toNat ≠ (w.map BitVec.toNat).sum) ∧
  sum16 (summedOctets 0xFFFF 0xFFFF 0xFF 0xFF (List.replicate 255 0xFF)) = 0x05F9#16

/-- R51: `decode` of a raw frame compares all 16 bits of the received and the computed checksum, and hands out the
fields where they are equal. -/
def Obligations.DecodeValidatesRawFrame : Prop :=
  ∀ (raw : List Byte) (L : Nat), L = (raw.getD 6 0).toNat → raw.length = 9 + L →
    let cCalc := sum16 ([0x55#8, 0xAA#8] ++ raw.take (7 + L))
    let cRx := be16 (raw.getD (7 + L) 0) (raw.getD (8 + L) 0)
    (cRx ≠ cCalc → decodeRaw raw = some (.mismatch cRx cCalc)) ∧
    (cRx = cCalc → decodeRaw raw = some (.ok {
      src := be16 (raw.getD 0 0) (raw.getD 1 0)
      dst := be16 (raw.getD 2 0) (raw.getD 3 0)
      ctrl := raw.getD 4 0
      func := raw.getD 5 0
      len := raw.getD 6 0
      payload := (List.range L).map fun k => raw.getD (7 + k) 0
      cs := cRx }))

/-- R52 (D19): `decode` is refused on exactly the sequences whose length is not `9 + raw[6]`. -/
def Obligations.DecodeRefusesOtherLengths : Prop :=
  ∀ raw : List Byte, decodeRaw raw = none ↔ ¬(7 ≤ raw.length ∧ raw.length = 9 + (raw.getD 6 0).toNat)

/-- R54: the running accumulator, 0x00FF first and then each raw octet up to the checksum added mod 2^16, gives exactly
the computed checksum of R51. -/
def Obligations.RunningAccumulatorAgrees : Prop :=
  ∀ raw : List Byte, runningSum (raw.take (7 + (raw.getD 6 0).toNat)) = checksumRaw raw

/-- R50 (its clause on registers is the spec's decision D20): ENCODE transmits `11 + n` octets in this order, writes
no register and raises no event. The next state is the whole of it. -/
def Obligations.EncodeTransmitsTheFrame : Prop :=
  ∀ (s : State) (dst : Half) (ctrl func : Byte) (payload : List Byte), payload.length ≤ 255 →
    let f := [0x55#8, 0xAA#8, hiOctet s.params.masterId, loOctet s.params.masterId, hiOctet dst, loOctet dst,
      ctrl, func, BitVec.ofNat 8 payload.length] ++ payload
    exec (.encode dst ctrl func payload) s = .next { s with
      ev := .noEvent
      tx := f ++ [hiOctet (sum16 f), loOctet (sum16 f)]
      txLen := some (BitVec.ofNat 9 (11 + payload.length)) }

/-- R55, R95 (D20, D26): after an ENCODE, whatever the host applies next does exactly what it would have done without
it, in any state of the assembler. -/
def Obligations.EncodeLeavesReceptionAlone : Prop :=
  ∀ (s t : State) (dst : Half) (ctrl func : Byte) (payload : List Byte) (j : Instr),
    exec (.encode dst ctrl func payload) s = .next t → exec j t = exec j s

/-- R53, first half (derived in the spec): decoding what ENCODE transmits, without its sync octets, gives the original
fields back. -/
def Obligations.DecodeOfEncodedFrame : Prop :=
  ∀ (s t : State) (dst : Half) (ctrl func : Byte) (payload : List Byte),
    exec (.encode dst ctrl func payload) s = .next t →
    decodeRaw (t.tx.drop 2) = some (.ok {
      src := s.params.masterId, dst := dst, ctrl := ctrl, func := func
      len := BitVec.ofNat 8 payload.length, payload := payload
      cs := sum16 (t.tx.take (9 + payload.length)) })

/-- R56 (derived in the spec), R41: the octets of the three outbound kinds. Each completes in every state, writes no
register and raises no event. That a kind is its ENCODE is the model's entry 7. -/
def Obligations.OutboundKindsTransmitTheirFrames : Prop :=
  ∀ s : State,
    let Mh := hiOctet s.params.masterId
    let Ml := loOctet s.params.masterId
    let cD := BitVec.ofNat 16 (0x00FF + Mh.toNat + Ml.toNat)
    exec .discovery s = .next { s with
      ev := .noEvent, txLen := some 11#9
      tx := [0x55, 0xAA, Mh, Ml, 0x00, 0x00, 0x00, 0x00, 0x00, hiOctet cD, loOctet cD] } ∧
    (∀ (serial : List Byte) (a : Byte), serial.length = 10 →
      let c := BitVec.ofNat 16
        (0x00FF + Mh.toNat + Ml.toNat + 0x01 + 0x0B + (serial.map BitVec.toNat).sum + a.toNat)
      exec (.allocateAddress serial a) s = .next { s with
        ev := .noEvent, txLen := some 22#9
        tx := [0x55, 0xAA, Mh, Ml, 0x00, 0x00, 0x00, 0x01, 0x0B] ++ serial ++ [a, hiOctet c, loOctet c] }) ∧
    (∀ A : Half,
      let c := BitVec.ofNat 16 (0x00FF + Mh.toNat + Ml.toNat + (hiOctet A).toNat + (loOctet A).toNat + 0x03)
      exec (.informationRequest A) s = .next { s with
        ev := .noEvent, txLen := some 11#9
        tx := [0x55, 0xAA, Mh, Ml, hiOctet A, loOctet A, 0x01, 0x02, 0x00, hiOctet c, loOctet c] })

/-- R35 (D27): the octets of successive ENCODE steps leave in step order, each frame whole: what the host observes of a
program of ENCODEs is their frames, in order, and no event. -/
def Obligations.FramesLeaveInStepOrder : Prop :=
  ∀ (s : State) (cmds : List (Half × Byte × Byte × List Byte)), (∀ c ∈ cmds, c.2.2.2.length ≤ 255) →
    observe cmds.length
      { s with inbox := cmds.map fun c => encode (.encode c.1 c.2.1 c.2.2.1 c.2.2.2) } =
    cmds.map fun c => (.noEvent, wireFrame s.params.masterId c.1 c.2.1 c.2.2.1 c.2.2.2)

/-! ## TICK and BYTE -/

/-- R65 with R57 (D5, D7, D8, D10): TICK completes in every state. It aborts a frame that has made no progress for more
than 500 clock units and otherwise changes no register. The next state is the whole of it. -/
def Obligations.TickRunsTheStallCheck : Prop :=
  ∀ (s : State) (now : Nat),
    (s.st = .wfs ∨ elapsed s.params.clockW now s.tl ≤ 500 →
      exec (.tick now) s = .next { s with ev := .noEvent, tx := [], txLen := none }) ∧
    (s.st ≠ .wfs → 500 < elapsed s.params.clockW now s.tl →
      exec (.tick now) s = .next { s with
        st := .wfs, sp := false, ev := .frameTimeout s.st s.idx, tx := [], txLen := none })

/-- R59 (D4, D5; D7 for `tl`, the model's entry 9): BYTE in WFS. `55 AA` starts a header, whatever the time between the two; any other octet sets `sp`
to whether it is 55. -/
def Obligations.ByteHuntsForSync : Prop :=
  ∀ (s : State) (b : Byte) (now : Nat), s.st = .wfs →
    (s.sp = true → b = 0xAA#8 →
      exec (.byte b now) s = .next { s with
        sp := false, st := .rh, idx := 0#9, tl := now % 2 ^ s.params.clockW
        ev := .noEvent, tx := [], txLen := none }) ∧
    (¬(s.sp = true ∧ b = 0xAA#8) →
      exec (.byte b now) s = .next { s with
        sp := decide (b = 0x55#8), ev := .noEvent, tx := [], txLen := none })

/-- R59 (D4, D5), vectors V-SY-4 and V-SY-6: the pair window slides by one octet, and neither time nor a TICK ends a
partial match. -/
def Obligations.SyncWindowSlides : Prop :=
  ∀ (s : State) (n0 n1 n2 n3 : Nat), s.st = .wfs →
    ∃ a b c e : State,
      exec (.byte 0x55#8 n0) s = .next a ∧ exec (.byte 0x55#8 n1) a = .next b ∧ exec (.tick n2) b = .next c ∧
      exec (.byte 0xAA#8 n3) c = .next e ∧
      e.st = .rh ∧ e.sp = false ∧ e.idx = 0#9 ∧ e.tl = n3 % 2 ^ s.params.clockW ∧ e.ev = .noEvent

/-- R60: BYTE in RH. The octet stands at `buf[idx]`, `idx` and `tl` move on; the seventh octet goes to `lengthCheck`
(R61); a stall between two header octets aborts the frame at the next step. That `tl` is the clock of the last octet is
the spec's decision D7 (its low `CLOCK_W` bits: the model's entry 9), the inclusive window D8, and that a late BYTE
aborts first D9. -/
def Obligations.ByteAccumulatesHeader : Prop :=
  ∀ (s : State) (b : Byte) (now : Nat), s.st = .rh → s.idx.toNat ≤ 6 →
    let s1 : State := { s with
      buf := s.buf.write s.idx.toNat b, idx := s.idx + 1#9, tl := now % 2 ^ s.params.clockW
      ev := .noEvent, tx := [], txLen := none }
    (elapsed s.params.clockW now s.tl ≤ stallMs →
      (s.idx.toNat < 6 → exec (.byte b now) s = .next s1) ∧
      (s.idx.toNat = 6 → exec (.byte b now) s = .next (lengthCheck b s1)) ∧
      (∀ a : Nat, s1.bufAt a = if a = s.idx.toNat then b else s.bufAt a)) ∧
    (stallMs < elapsed s.params.clockW now s.tl →
      (∃ t, exec (.byte b now) s = .next t ∧ t.st = .wfs ∧ t.ev = .frameTimeout .rh s.idx) ∧
      (∃ t, exec (.tick now) s = .next t ∧ t.st = .wfs ∧ t.ev = .frameTimeout .rh s.idx))

/-- R61 (D12; D7, D8, D25 for `tl` and the window; the model's entries 9 and 15) with R6: the seventh header octet, the declared payload length. A frame that does not fit is rejected, one
that fits starts the countdown from `L + 2`, and it fits exactly when its length is at most PAYLOAD_MAX. -/
def Obligations.AcceptedLengthsArePayloadMax : Prop :=
  ∀ (s : State) (len : Byte) (now : Nat), s.st = .rh → s.idx = 6#9 → elapsed s.params.clockW now s.tl ≤ 500 →
    let s1 : State := { s with
      buf := s.buf.write 6 len, idx := 7#9, tl := now % 2 ^ s.params.clockW
      ev := .noEvent, tx := [], txLen := none }
    (s.params.bufCap < 9 + len.toNat →
      exec (.byte len now) s = .next { s1 with st := .wfs, sp := false, ev := .bufferOverflowRisk len }) ∧
    (9 + len.toNat ≤ s.params.bufCap →
      exec (.byte len now) s = .next { s1 with rem := BitVec.ofNat 9 (len.toNat + 2), st := .rp }) ∧
    (9 + len.toNat ≤ s.params.bufCap ↔ len.toNat ≤ s.params.payloadMax)

/-- R62: BYTE in RP. The octet stands at `buf[idx]`, `idx`, `tl` and `rem` move on; when the countdown reaches 0 the
frame is completed (`complete`, R63). The premises `idx < BUF_CAP` and `rem ≥ 1` are part of R27's invariant. That `tl`
is the clock of the last octet is the spec's decision D7 (its low `CLOCK_W` bits: the model's entry 9), the inclusive
window D8. -/
def Obligations.ByteCountsDownPayload : Prop :=
  ∀ (s : State) (b : Byte) (now : Nat), s.st = .rp → elapsed s.params.clockW now s.tl ≤ stallMs →
    s.idx.toNat < s.params.bufCap → 1 ≤ s.rem.toNat →
    let s1 : State := { s with
      buf := s.buf.write s.idx.toNat b, idx := s.idx + 1#9, tl := now % 2 ^ s.params.clockW, rem := s.rem - 1#9
      ev := .noEvent, tx := [], txLen := none }
    s1.rem.toNat = s.rem.toNat - 1 ∧
    (s.rem ≠ 1#9 → exec (.byte b now) s = .next s1) ∧
    (s.rem = 1#9 → exec (.byte b now) s = complete s1) ∧
    (∀ a : Nat, s1.bufAt a = if a = s.idx.toNat then b else s.bufAt a)

/-- R63 with R51 (D21), R66 (D17), R71; D7, D8, D25 for `tl` and the window (the model's entries 9 and 15): the octet
that ends a frame. The frame is validated in this step: FRAME with its
fields where the checksums are equal, CHECKSUM_MISMATCH with both where they are not, and WFS with `sp = 0` either
way. -/
def Obligations.LastOctetCompletesTheFrame : Prop :=
  ∀ (s : State) (b : Byte) (now : Nat), s.Inv → s.st = .rp → s.rem = 1#9 →
    elapsed s.params.clockW now s.tl ≤ 500 →
    let L := s.declaredLen
    let s1 : State := { s with
      buf := s.buf.write s.idx.toNat b, idx := s.idx + 1#9, tl := now % 2 ^ s.params.clockW, rem := 0#9
      st := .wfs, sp := false, ev := .noEvent, tx := [], txLen := none }
    let cCalc := sum16 ([0x55#8, 0xAA#8] ++ s1.bufSlice 0 (7 + L))
    let cRx := be16 (s1.bufAt (7 + L)) (s1.bufAt (8 + L))
    (cRx = cCalc → exec (.byte b now) s = .next { s1 with ev := .frame {
      src := s1.bufField 0, dst := s1.bufField 2, ctrl := s1.bufAt 4, func := s1.bufAt 5, len := s1.bufAt 6
      payload := s1.bufSlice 7 L, cs := cRx } }) ∧
    (cRx ≠ cCalc → exec (.byte b now) s = .next { s1 with ev := .checksumMismatch cRx cCalc })

/-- R58, R76 (D9; D8, D25 for the window, the model's entry 15): the stall check comes first. A late octet aborts the frame, whatever it would have been, and is then
examined in WFS. -/
def Obligations.LateOctetAbortsThenHunts : Prop :=
  ∀ (s : State) (b : Byte) (now : Nat), s.st ≠ .wfs → 500 < elapsed s.params.clockW now s.tl →
    exec (.byte b now) s = .next { s with
      st := .wfs, sp := decide (b = 0x55#8), ev := .frameTimeout s.st s.idx, tx := [], txLen := none }

/-- The stores of BYTE and of the inbound kinds: an octet taken in RH or RP stands at `buf[idx]`, with `idx` as it was
before the step, and every other element reads as before; an octet taken in WFS (or after an abort) stores nothing.
Nothing else but the registers that R59 to R64 name changes (R11, R21, R30). D7, D8, D9, D25 for `tl` and the window (the
model's entries 9 and 15); the step of an inbound kind is the model's entry 7. -/
def Obligations.ByteStoresAtIndexOnly : Prop :=
  ∀ (i : Instr) (s t : State) (b : Byte) (now : Nat), octetTaken i = some b → clockUsed i = some now →
    exec i s = .next t →
    t.params = s.params ∧ t.draws = s.draws ∧ t.tx = [] ∧ t.txLen = none ∧
    (i = .byte b now → t.inbox = s.inbox) ∧
    (s.st = .wfs ∨ 500 < elapsed s.params.clockW now s.tl →
      (∀ a : Nat, t.bufAt a = s.bufAt a) ∧ t.rem = s.rem) ∧
    (s.st ≠ .wfs → elapsed s.params.clockW now s.tl ≤ 500 →
      t.bufAt s.idx.toNat = b ∧ (∀ a : Nat, a ≠ s.idx.toNat → t.bufAt a = s.bufAt a) ∧
      t.idx = s.idx + 1#9 ∧ t.tl = now % 2 ^ s.params.clockW ∧
      (s.st = .rh → s.idx ≠ 6#9 → t.st = .rh ∧ t.sp = s.sp ∧ t.rem = s.rem))

/-- The frame of the forms that store nothing: TICK, ENCODE and the outbound kinds leave every element of the buffer
and every register but `st` and `sp` as it was, and ENCODE and the outbound kinds leave those too (R50, R55, R65). -/
def Obligations.TickAndEncodeStoreNothing : Prop :=
  ∀ (i : Instr) (s t : State), octetTaken i = none → i ≠ .reset → exec i s = .next t →
    (∀ a : Nat, t.bufAt a = s.bufAt a) ∧ t.buf = s.buf ∧ t.idx = s.idx ∧ t.rem = s.rem ∧ t.tl = s.tl ∧
    t.params = s.params ∧ t.inbox = s.inbox ∧ t.draws = s.draws ∧
    ((∀ now, i ≠ .tick now) → t.st = s.st ∧ t.sp = s.sp ∧ t.ev = .noEvent)

/-! ## The inbound kinds -/

/-- R41 with R46: an inbound kind is the BYTE of its first sync octet at `t0`, with the BYTEs of its other octets
presented next, `d` apart (the model's entry 7); in WFS it completes with `sp = 1`. -/
def Obligations.InboundKindsPresentTheirOctets : Prop :=
  ∀ (s : State) (src dst : Half) (payload : List Byte) (t0 d : Nat),
    let after : Byte → Byte → State := fun ctrl func => { s with
      inbox := bytesAt (wireFrame src dst ctrl func payload).tail (t0 + d) d ++ s.inbox }
    (payload.length = 10 →
      exec (.registrationRequest src dst payload t0 d) s = exec (.byte 0x55#8 t0) (after 0x00 0x80) ∧
      (s.st = .wfs → exec (.registrationRequest src dst payload t0 d) s =
        .next { after 0x00 0x80 with sp := true, ev := .noEvent, tx := [], txLen := none })) ∧
    (payload.length ≤ 255 →
      exec (.registrationConfirmation src dst payload t0 d) s = exec (.byte 0x55#8 t0) (after 0x00 0x81) ∧
      (s.st = .wfs → exec (.registrationConfirmation src dst payload t0 d) s =
        .next { after 0x00 0x81 with sp := true, ev := .noEvent, tx := [], txLen := none })) ∧
    (44 ≤ payload.length → payload.length ≤ 255 →
      exec (.informationResponse src dst payload t0 d) s = exec (.byte 0x55#8 t0) (after 0x01 0x81) ∧
      (s.st = .wfs → exec (.informationResponse src dst payload t0 d) s =
        .next { after 0x01 0x81 with sp := true, ev := .noEvent, tx := [], txLen := none }))

/-- R53, R66, W1 (D7, D8, D25: the window, the model's entry 15): an inbound kind presented in WFS with gaps of at most
500 is delivered. That a kind is its frame presented octet by octet is the model's entry 7. The step that runs it and one
step per further octet end with FRAME and its fields, the assembler back in WFS and the rest of what the host presents
untouched. -/
def Obligations.InboundKindIsDelivered : Prop :=
  ∀ (s : State) (i : Instr) (src dst : Half) (ctrl func : Byte) (payload : List Byte) (t0 d : Nat)
    (rest : List HostItem),
    (i = .registrationRequest src dst payload t0 d ∧ ctrl = 0x00#8 ∧ func = 0x80#8) ∨
    (i = .registrationConfirmation src dst payload t0 d ∧ ctrl = 0x00#8 ∧ func = 0x81#8) ∨
    (i = .informationResponse src dst payload t0 d ∧ ctrl = 0x01#8 ∧ func = 0x81#8) →
    i.wf = true → s.st = .wfs → 9 + payload.length ≤ s.params.bufCap → d ≤ 500 →
    ∃ t : State,
      Host.Core.run Sys2Proof.core (11 + payload.length) { s with inbox := encode i :: rest } = .next t ∧
      t.ev = .frame {
        src := src, dst := dst, ctrl := ctrl, func := func, len := BitVec.ofNat 8 payload.length
        payload := payload, cs := sum16 (summedOctets src dst ctrl func payload) } ∧
      t.st = .wfs ∧ t.sp = false ∧ t.inbox = rest

/-- R53, second half (derived in the spec; D7, D8, D25: the window, the model's entry 15): from WFS, with or without a partial match, a wire frame presented as BYTE
steps, with TICK and ENCODE steps anywhere between them and no step too late, raises exactly one event: FRAME with the
original fields, on the last octet's step. -/
def Obligations.PresentedFrameIsReceivedOnce : Prop :=
  ∀ (s : State) (src dst : Half) (ctrl func : Byte) (payload : List Byte) (prog : List Instr) (b : Byte) (now : Nat),
    s.st = .wfs → payload.length ≤ 255 → 9 + payload.length ≤ s.params.bufCap →
    octetsOf (prog ++ [.byte b now]) = wireFrame src dst ctrl func payload →
    Timely s.params.clockW 0 0 (prog ++ [.byte b now]) →
    ∃ t : State,
      runInstrs (prog ++ [.byte b now]) s = some (t, List.replicate prog.length Event.noEvent ++ [.frame {
        src := src, dst := dst, ctrl := ctrl, func := func, len := BitVec.ofNat 8 payload.length
        payload := payload, cs := sum16 (summedOctets src dst ctrl func payload) }]) ∧
      t.st = .wfs ∧ t.sp = false

/-! ## The events and the rules of the whole machine -/

/-- R19 (D23) and R70 (D16): the codes of `st` and of `ev`; 0b11 and 5 to 7 are never produced. -/
def Obligations.CodesAreAsTabled : Prop :=
  AsmState.code .wfs = 0b00#2 ∧ AsmState.code .rh = 0b01#2 ∧ AsmState.code .rp = 0b10#2 ∧
  (∀ q : AsmState, q.code ≠ 0b11#2) ∧
  Event.code .noEvent = 0#3 ∧ (∀ f, Event.code (.frame f) = 1#3) ∧
  (∀ r c, Event.code (.checksumMismatch r c) = 2#3) ∧ (∀ q o, Event.code (.frameTimeout q o) = 3#3) ∧
  (∀ l, Event.code (.bufferOverflowRisk l) = 4#3) ∧ (∀ e : Event, e.code.toNat ≤ 4)

/-- R72: FRAME_TIMEOUT arises at the start of a step that checks the time (TICK, BYTE, and the BYTE of an inbound kind)
in RH or RP more than 500 after the last progress, and nowhere else; it records the state and `idx`; the assembler is
then in WFS, with `sp = 0` unless the step's own octet, examined in WFS, is 55. The spec's decisions D7, D8, D9, D25; the
step of an inbound kind is the model's entry 7. -/
def Obligations.TimeoutExactlyWhenStalled : Prop :=
  ∀ (i : Instr) (s t : State) (q : AsmState) (o : BitVec 9), exec i s = .next t →
    (t.ev = .frameTimeout q o ↔
      ∃ now, clockUsed i = some now ∧ s.st ≠ .wfs ∧ 500 < elapsed s.params.clockW now s.tl ∧ q = s.st ∧ o = s.idx) ∧
    (t.ev = .frameTimeout q o → t.st = .wfs ∧
      (octetTaken i = none → t.sp = false) ∧ (∀ b, octetTaken i = some b → t.sp = decide (b = 0x55#8)))

/-- R73: BUFFER_OVERFLOW_RISK arises exactly when the seventh header octet, the payload length, is accepted and does
not fit; the frame is discarded before any payload octet is written. The spec's decisions D8, D12, D25; the step of an
inbound kind is the model's entry 7. -/
def Obligations.OverflowRiskExactlyWhenTooLong : Prop :=
  ∀ (i : Instr) (s t : State) (len : Byte), exec i s = .next t →
    (t.ev = .bufferOverflowRisk len ↔
      ∃ now, clockUsed i = some now ∧ octetTaken i = some len ∧ s.st = .rh ∧ s.idx = 6#9 ∧
        elapsed s.params.clockW now s.tl ≤ 500 ∧ s.params.bufCap < 9 + len.toNat) ∧
    (t.ev = .bufferOverflowRisk len →
      t.st = .wfs ∧ t.sp = false ∧ ∀ a : Nat, 7 ≤ a → t.bufAt a = s.bufAt a)

/-- R71: CHECKSUM_MISMATCH arises exactly when a frame's last octet is accepted in RP and the two received checksum
octets differ from the computed sum; it records both; the assembler is in WFS with `sp = 0`. The spec's decisions D8, D25;
the step of an inbound kind is the model's entry 7. -/
def Obligations.MismatchExactlyWhenSumsDiffer : Prop :=
  ∀ (i : Instr) (s t : State) (cRx cCalc : Half), s.Inv → exec i s = .next t →
    (t.ev = .checksumMismatch cRx cCalc ↔
      ∃ now b, clockUsed i = some now ∧ octetTaken i = some b ∧ s.st = .rp ∧ s.rem = 1#9 ∧
        elapsed s.params.clockW now s.tl ≤ 500 ∧
        cRx = be16 (t.bufAt (7 + s.declaredLen)) (t.bufAt (8 + s.declaredLen)) ∧
        cCalc = sum16 ([0x55#8, 0xAA#8] ++ t.bufSlice 0 (7 + s.declaredLen)) ∧ cRx ≠ cCalc) ∧
    (t.ev = .checksumMismatch cRx cCalc → t.st = .wfs ∧ t.sp = false)

/-- R66 (D17): no frame is emitted without a matching checksum; a FRAME's fields are those of a frame whose octets sum
to its checksum, it comes from RP and leaves the assembler in WFS. -/
def Obligations.FramesHaveMatchingChecksums : Prop :=
  ∀ (i : Instr) (s t : State) (f : FrameFields), exec i s = .next t → t.ev = .frame f →
    f.payload.length = f.len.toNat ∧ f.cs = sum16 (summedOctets f.src f.dst f.ctrl f.func f.payload) ∧
    s.st = .rp ∧ t.st = .wfs ∧ t.sp = false

/-- R68 (derived in the spec): sync detection runs only in WFS. The assembler comes to RH from another state only by
the BYTE AA in WFS with a partial match. -/
def Obligations.HeaderStartsOnlyOnSync : Prop :=
  ∀ (i : Instr) (s t : State), exec i s = .next t → t.st = .rh → s.st ≠ .rh →
    s.st = .wfs ∧ s.sp = true ∧ ∃ now, i = .byte 0xAA#8 now

/-- R64 (D6, D9): a frame that ends, by completion, rejection, TICK or RESET, leaves no partial match; only the octet
of a BYTE step that timed out can start one. -/
def Obligations.FrameEndLeavesNoPartialSync : Prop :=
  ∀ (i : Instr) (s t : State), exec i s = .next t → s.st ≠ .wfs → t.st = .wfs → t.sp = true →
    octetTaken i = some 0x55#8 ∧ ∃ q o, t.ev = .frameTimeout q o

/-- R67 (derived in the spec): the time stamp is rewritten by the step that accepts the sync AA and by each step that
accepts an octet in RH or RP, with that step's clock, and by no other step but RESET. The spec's decisions D7, D8, D25; the
step of an inbound kind is the model's entry 7, the low `CLOCK_W` bits its entry 9. -/
def Obligations.OnlyProgressMovesTheTimeStamp : Prop :=
  ∀ (i : Instr) (s t : State), exec i s = .next t → i ≠ .reset →
    (∀ b now, octetTaken i = some b → clockUsed i = some now →
      (s.st = .wfs ∧ s.sp = true ∧ b = 0xAA#8) ∨ (s.st ≠ .wfs ∧ elapsed s.params.clockW now s.tl ≤ 500) →
      t.tl = now % 2 ^ s.params.clockW) ∧
    ((octetTaken i = none ∨ ∃ b now, octetTaken i = some b ∧ clockUsed i = some now ∧
      ¬((s.st = .wfs ∧ s.sp = true ∧ b = 0xAA#8) ∨ (s.st ≠ .wfs ∧ elapsed s.params.clockW now s.tl ≤ 500))) →
      t.tl = s.tl)

/-- R86 (D18): RESET completes in every state, to WFS with `sp = 0` and no event, whatever it leaves in the registers
that R86 does not specify; `55 RESET AA` does not sync. -/
def Obligations.ResetClearsTheAssembler : Prop :=
  ∀ s : State, ∃ t : State, exec .reset s = .next t ∧
    t.st = .wfs ∧ t.sp = false ∧ t.ev = .noEvent ∧ t.tx = [] ∧ t.txLen = none ∧
    t.params = s.params ∧ t.inbox = s.inbox ∧
    ∀ now : Nat, ∃ u : State, exec (.byte 0xAA#8 now) t = .next u ∧ u.st = .wfs ∧ u.sp = false ∧ u.ev = .noEvent

/-! ## Time -/

/-- R93 (D22): a clock that is `d` behind the time stamp is seen as `2^CLOCK_W - d` ahead, and fires FRAME_TIMEOUT
exactly when that is more than 500. -/
def Obligations.BackwardsClockIsSeenAsAhead : Prop :=
  ∀ (s : State) (now d : Nat), s.ClockOk → s.st ≠ .wfs → 0 < d → d < 2 ^ s.params.clockW →
    (now + d) % 2 ^ s.params.clockW = s.tl →
    elapsed s.params.clockW now s.tl = 2 ^ s.params.clockW - d ∧
    (500 < 2 ^ s.params.clockW - d → ∃ t, exec (.tick now) s = .next t ∧ t.ev = .frameTimeout s.st s.idx) ∧
    (2 ^ s.params.clockW - d ≤ 500 → ∃ t, exec (.tick now) s = .next t ∧ t.ev = .noEvent ∧ t.st = s.st)

/-- R92 (D29): a gap is seen mod `2^CLOCK_W`; and a host that steps at least once every `2^CLOCK_W - 501` sees every
stall. `T` is the real time of the last progress, `T1` that of the last step within the window, `T2` that of the first
step after it. -/
def Obligations.StallIsSeenByASteppingHost : Prop :=
  (∀ W T G : Nat, elapsed W (T + G) T = G % 2 ^ W) ∧
  (∀ (s : State) (T T1 T2 : Nat), s.st ≠ .wfs → s.tl = T % 2 ^ s.params.clockW →
    T ≤ T1 → T1 ≤ T + 500 → T + 500 < T2 → T2 ≤ T1 + (2 ^ s.params.clockW - 501) →
    (∃ t, exec (.tick T2) s = .next t ∧ t.ev = .frameTimeout s.st s.idx ∧ t.st = .wfs) ∧
    (∀ b, ∃ t, exec (.byte b T2) s = .next t ∧ t.ev = .frameTimeout s.st s.idx ∧ t.st = .wfs))

/-! ## Invariants -/

/-- R27, base case: every reset state of R87 satisfies the invariant, `State.reset` is one of them, and its buffer and
time stamp have their form. -/
def Obligations.ResetStatesSatisfyTheInvariant : Prop :=
  (∀ s : State, s.IsReset → s.Inv) ∧ State.reset.IsReset ∧ State.reset.BufOk ∧ State.reset.ClockOk

/-- R27 (derived in the spec): every step keeps the invariant, whatever the host presents. -/
def Obligations.EveryStepKeepsTheInvariant : Prop :=
  ∀ s t : State, s.Inv → step s = .next t → t.Inv

/-- The buffer's canonical form, its elements' indices below BUF_CAP, and the width of the time stamp (R21, R24): every
step keeps them. The form is the model's own. -/
def Obligations.EveryStepKeepsBufferForm : Prop :=
  ∀ s t : State, s.BufOk → s.ClockOk → step s = .next t → t.BufOk ∧ t.ClockOk

/-- R15, R30, R73: from a state that satisfies the invariant every instruction completes, and no BYTE overruns the
buffer. -/
def Obligations.EveryInstructionCompletes : Prop :=
  ∀ (i : Instr) (s : State), s.Inv → i.wf = true → ∃ t, exec i s = .next t

/-- R16, R27: the block never halts, faults or stops. In every state that can be reached from a reset state by whatever
the host presents, by instructions and by steps, the invariant holds, every instruction completes, and a step is refused only where the decoder
rejects what is presented. -/
def Obligations.ReachableBlockNeverStops : Prop :=
  ∀ s : State, Reachable s →
    s.Inv ∧ (∀ i : Instr, i.wf = true → ∃ t, exec i s = .next t) ∧
    (∀ f, step s ≠ .fault f) ∧ (∀ r, step s = .refused r → ∃ e, r = .invalid e)

/-- R27, R87, U2, U3: dead registers do not matter. Two states with the invariant that agree on the live registers take
the same step: same outputs, and agreeing live registers after it, RESET's free values included. -/
def Obligations.DeadRegistersDoNotMatter : Prop :=
  ∀ s t s' : State, s.Inv → t.Inv → SameLive s t → step s = .next s' →
    ∃ t', step t = .next t' ∧ SameLive s' t' ∧ SameOutputs s' t'

/-- R6 (derived in the spec): a buffer of more than 264 octets behaves exactly as one of 264. -/
def Obligations.CapacityAbove264IsAs264 : Prop :=
  ∀ (i : Instr) (s t : State) (cap : Nat) (h : 9 ≤ cap), s.Inv → 264 ≤ s.params.bufCap → 264 ≤ cap →
    exec i s = .next t →
    exec i { s with params := s.params.withCap cap h } = .next { t with params := s.params.withCap cap h }

/-! ## Stops outside the invariant -/

/-- Where no rule of the spec leads (R30 says the write does not happen): a BYTE whose element does not exist faults,
and the completion of a sequence of the wrong length is refused (R52, U7). The model's entries 10 and 11. -/
def Obligations.StopsOutsideTheInvariant : Prop :=
  ∀ (s : State) (b : Byte) (now : Nat), elapsed s.params.clockW now s.tl ≤ 500 →
    (s.st ≠ .wfs → s.params.bufCap ≤ s.idx.toNat → exec (.byte b now) s = .fault (.bufferOverrun s.idx.toNat)) ∧
    (s.st = .rp → s.idx.toNat < s.params.bufCap → s.rem = 1#9 →
      let s1 : State := { s with buf := s.buf.write s.idx.toNat b, idx := s.idx + 1#9 }
      s1.idx.toNat ≠ 9 + (s1.bufAt 6).toNat → exec (.byte b now) s = .refused (.rawFrameLength s1.idx.toNat))
end

