-- ==== Sys2Proof/Laws/State.lean ====
section
/-! SUPPORT. One lemma per field per named update of the state, true by rfl, so that no proof unfolds a record update. -/

namespace Sys2Proof.Machine

variable (s : State)

/-! `State.quiet` -/
@[simp] theorem State.quiet_params : s.quiet.params = s.params := rfl
@[simp] theorem State.quiet_st : s.quiet.st = s.st := rfl
@[simp] theorem State.quiet_sp : s.quiet.sp = s.sp := rfl
@[simp] theorem State.quiet_buf : s.quiet.buf = s.buf := rfl
@[simp] theorem State.quiet_idx : s.quiet.idx = s.idx := rfl
@[simp] theorem State.quiet_rem : s.quiet.rem = s.rem := rfl
@[simp] theorem State.quiet_tl : s.quiet.tl = s.tl := rfl
@[simp] theorem State.quiet_ev : s.quiet.ev = .noEvent := rfl
@[simp] theorem State.quiet_tx : s.quiet.tx = [] := rfl
@[simp] theorem State.quiet_txLen : s.quiet.txLen = none := rfl
@[simp] theorem State.quiet_inbox : s.quiet.inbox = s.inbox := rfl
@[simp] theorem State.quiet_draws : s.quiet.draws = s.draws := rfl

/-! `State.raise` -/
@[simp] theorem State.raise_params (e : Event) : (s.raise e).params = s.params := rfl
@[simp] theorem State.raise_st (e : Event) : (s.raise e).st = s.st := rfl
@[simp] theorem State.raise_sp (e : Event) : (s.raise e).sp = s.sp := rfl
@[simp] theorem State.raise_buf (e : Event) : (s.raise e).buf = s.buf := rfl
@[simp] theorem State.raise_idx (e : Event) : (s.raise e).idx = s.idx := rfl
@[simp] theorem State.raise_rem (e : Event) : (s.raise e).rem = s.rem := rfl
@[simp] theorem State.raise_tl (e : Event) : (s.raise e).tl = s.tl := rfl
@[simp] theorem State.raise_ev (e : Event) : (s.raise e).ev = e := rfl
@[simp] theorem State.raise_tx (e : Event) : (s.raise e).tx = s.tx := rfl
@[simp] theorem State.raise_txLen (e : Event) : (s.raise e).txLen = s.txLen := rfl
@[simp] theorem State.raise_inbox (e : Event) : (s.raise e).inbox = s.inbox := rfl
@[simp] theorem State.raise_draws (e : Event) : (s.raise e).draws = s.draws := rfl

/-! `State.output` -/
@[simp] theorem State.output_params (w : List Byte) : (s.output w).params = s.params := rfl
@[simp] theorem State.output_st (w : List Byte) : (s.output w).st = s.st := rfl
@[simp] theorem State.output_sp (w : List Byte) : (s.output w).sp = s.sp := rfl
@[simp] theorem State.output_buf (w : List Byte) : (s.output w).buf = s.buf := rfl
@[simp] theorem State.output_idx (w : List Byte) : (s.output w).idx = s.idx := rfl
@[simp] theorem State.output_rem (w : List Byte) : (s.output w).rem = s.rem := rfl
@[simp] theorem State.output_tl (w : List Byte) : (s.output w).tl = s.tl := rfl
@[simp] theorem State.output_ev (w : List Byte) : (s.output w).ev = s.ev := rfl
@[simp] theorem State.output_tx (w : List Byte) : (s.output w).tx = w := rfl
@[simp] theorem State.output_txLen (w : List Byte) : (s.output w).txLen = some (BitVec.ofNat 9 w.length) := rfl
@[simp] theorem State.output_inbox (w : List Byte) : (s.output w).inbox = s.inbox := rfl
@[simp] theorem State.output_draws (w : List Byte) : (s.output w).draws = s.draws := rfl

/-! `State.goWFS` -/
@[simp] theorem State.goWFS_params : s.goWFS.params = s.params := rfl
@[simp] theorem State.goWFS_st : s.goWFS.st = .wfs := rfl
@[simp] theorem State.goWFS_sp : s.goWFS.sp = false := rfl
@[simp] theorem State.goWFS_buf : s.goWFS.buf = s.buf := rfl
@[simp] theorem State.goWFS_idx : s.goWFS.idx = s.idx := rfl
@[simp] theorem State.goWFS_rem : s.goWFS.rem = s.rem := rfl
@[simp] theorem State.goWFS_tl : s.goWFS.tl = s.tl := rfl
@[simp] theorem State.goWFS_ev : s.goWFS.ev = s.ev := rfl
@[simp] theorem State.goWFS_tx : s.goWFS.tx = s.tx := rfl
@[simp] theorem State.goWFS_txLen : s.goWFS.txLen = s.txLen := rfl
@[simp] theorem State.goWFS_inbox : s.goWFS.inbox = s.inbox := rfl
@[simp] theorem State.goWFS_draws : s.goWFS.draws = s.draws := rfl

/-! `State.abort` -/
@[simp] theorem State.abort_params (e : Event) : (s.abort e).params = s.params := rfl
@[simp] theorem State.abort_st (e : Event) : (s.abort e).st = .wfs := rfl
@[simp] theorem State.abort_sp (e : Event) : (s.abort e).sp = false := rfl
@[simp] theorem State.abort_buf (e : Event) : (s.abort e).buf = s.buf := rfl
@[simp] theorem State.abort_idx (e : Event) : (s.abort e).idx = s.idx := rfl
@[simp] theorem State.abort_rem (e : Event) : (s.abort e).rem = s.rem := rfl
@[simp] theorem State.abort_tl (e : Event) : (s.abort e).tl = s.tl := rfl
@[simp] theorem State.abort_ev (e : Event) : (s.abort e).ev = e := rfl
@[simp] theorem State.abort_tx (e : Event) : (s.abort e).tx = s.tx := rfl
@[simp] theorem State.abort_txLen (e : Event) : (s.abort e).txLen = s.txLen := rfl
@[simp] theorem State.abort_inbox (e : Event) : (s.abort e).inbox = s.inbox := rfl
@[simp] theorem State.abort_draws (e : Event) : (s.abort e).draws = s.draws := rfl

/-! `State.setSp` -/
@[simp] theorem State.setSp_params (f : Bool) : (s.setSp f).params = s.params := rfl
@[simp] theorem State.setSp_st (f : Bool) : (s.setSp f).st = s.st := rfl
@[simp] theorem State.setSp_sp (f : Bool) : (s.setSp f).sp = f := rfl
@[simp] theorem State.setSp_buf (f : Bool) : (s.setSp f).buf = s.buf := rfl
@[simp] theorem State.setSp_idx (f : Bool) : (s.setSp f).idx = s.idx := rfl
@[simp] theorem State.setSp_rem (f : Bool) : (s.setSp f).rem = s.rem := rfl
@[simp] theorem State.setSp_tl (f : Bool) : (s.setSp f).tl = s.tl := rfl
@[simp] theorem State.setSp_ev (f : Bool) : (s.setSp f).ev = s.ev := rfl
@[simp] theorem State.setSp_tx (f : Bool) : (s.setSp f).tx = s.tx := rfl
@[simp] theorem State.setSp_txLen (f : Bool) : (s.setSp f).txLen = s.txLen := rfl
@[simp] theorem State.setSp_inbox (f : Bool) : (s.setSp f).inbox = s.inbox := rfl
@[simp] theorem State.setSp_draws (f : Bool) : (s.setSp f).draws = s.draws := rfl

/-! `State.countDown` -/
@[simp] theorem State.countDown_params : s.countDown.params = s.params := rfl
@[simp] theorem State.countDown_st : s.countDown.st = s.st := rfl
@[simp] theorem State.countDown_sp : s.countDown.sp = s.sp := rfl
@[simp] theorem State.countDown_buf : s.countDown.buf = s.buf := rfl
@[simp] theorem State.countDown_idx : s.countDown.idx = s.idx := rfl
@[simp] theorem State.countDown_rem : s.countDown.rem = s.rem - 1#9 := rfl
@[simp] theorem State.countDown_tl : s.countDown.tl = s.tl := rfl
@[simp] theorem State.countDown_ev : s.countDown.ev = s.ev := rfl
@[simp] theorem State.countDown_tx : s.countDown.tx = s.tx := rfl
@[simp] theorem State.countDown_txLen : s.countDown.txLen = s.txLen := rfl
@[simp] theorem State.countDown_inbox : s.countDown.inbox = s.inbox := rfl
@[simp] theorem State.countDown_draws : s.countDown.draws = s.draws := rfl

/-! `State.enterRH` -/
@[simp] theorem State.enterRH_params (now : Nat) : (s.enterRH now).params = s.params := rfl
@[simp] theorem State.enterRH_st (now : Nat) : (s.enterRH now).st = .rh := rfl
@[simp] theorem State.enterRH_sp (now : Nat) : (s.enterRH now).sp = false := rfl
@[simp] theorem State.enterRH_buf (now : Nat) : (s.enterRH now).buf = s.buf := rfl
@[simp] theorem State.enterRH_idx (now : Nat) : (s.enterRH now).idx = 0#9 := rfl
@[simp] theorem State.enterRH_rem (now : Nat) : (s.enterRH now).rem = s.rem := rfl
@[simp] theorem State.enterRH_tl (now : Nat) : (s.enterRH now).tl = clockPort s.params.clockW now := rfl
@[simp] theorem State.enterRH_ev (now : Nat) : (s.enterRH now).ev = s.ev := rfl
@[simp] theorem State.enterRH_tx (now : Nat) : (s.enterRH now).tx = s.tx := rfl
@[simp] theorem State.enterRH_txLen (now : Nat) : (s.enterRH now).txLen = s.txLen := rfl
@[simp] theorem State.enterRH_inbox (now : Nat) : (s.enterRH now).inbox = s.inbox := rfl
@[simp] theorem State.enterRH_draws (now : Nat) : (s.enterRH now).draws = s.draws := rfl

/-! `State.enterRP` -/
@[simp] theorem State.enterRP_params (len : Byte) : (s.enterRP len).params = s.params := rfl
@[simp] theorem State.enterRP_st (len : Byte) : (s.enterRP len).st = .rp := rfl
@[simp] theorem State.enterRP_sp (len : Byte) : (s.enterRP len).sp = s.sp := rfl
@[simp] theorem State.enterRP_buf (len : Byte) : (s.enterRP len).buf = s.buf := rfl
@[simp] theorem State.enterRP_idx (len : Byte) : (s.enterRP len).idx = s.idx := rfl
@[simp] theorem State.enterRP_rem (len : Byte) : (s.enterRP len).rem = BitVec.ofNat 9 (len.toNat + csLen) := rfl
@[simp] theorem State.enterRP_tl (len : Byte) : (s.enterRP len).tl = s.tl := rfl
@[simp] theorem State.enterRP_ev (len : Byte) : (s.enterRP len).ev = s.ev := rfl
@[simp] theorem State.enterRP_tx (len : Byte) : (s.enterRP len).tx = s.tx := rfl
@[simp] theorem State.enterRP_txLen (len : Byte) : (s.enterRP len).txLen = s.txLen := rfl
@[simp] theorem State.enterRP_inbox (len : Byte) : (s.enterRP len).inbox = s.inbox := rfl
@[simp] theorem State.enterRP_draws (len : Byte) : (s.enterRP len).draws = s.draws := rfl

/-! `State.accept` -/
@[simp] theorem State.accept_params (b : Byte) (now : Nat) : (s.accept b now).params = s.params := rfl
@[simp] theorem State.accept_st (b : Byte) (now : Nat) : (s.accept b now).st = s.st := rfl
@[simp] theorem State.accept_sp (b : Byte) (now : Nat) : (s.accept b now).sp = s.sp := rfl
@[simp] theorem State.accept_buf (b : Byte) (now : Nat) : (s.accept b now).buf = s.buf.write s.idx.toNat b := rfl
@[simp] theorem State.accept_idx (b : Byte) (now : Nat) : (s.accept b now).idx = s.idx + 1#9 := rfl
@[simp] theorem State.accept_rem (b : Byte) (now : Nat) : (s.accept b now).rem = s.rem := rfl
@[simp] theorem State.accept_tl (b : Byte) (now : Nat) : (s.accept b now).tl = clockPort s.params.clockW now := rfl
@[simp] theorem State.accept_ev (b : Byte) (now : Nat) : (s.accept b now).ev = s.ev := rfl
@[simp] theorem State.accept_tx (b : Byte) (now : Nat) : (s.accept b now).tx = s.tx := rfl
@[simp] theorem State.accept_txLen (b : Byte) (now : Nat) : (s.accept b now).txLen = s.txLen := rfl
@[simp] theorem State.accept_inbox (b : Byte) (now : Nat) : (s.accept b now).inbox = s.inbox := rfl
@[simp] theorem State.accept_draws (b : Byte) (now : Nat) : (s.accept b now).draws = s.draws := rfl

/-! `State.forget` -/
@[simp] theorem State.forget_params : s.forget.params = s.params := rfl
@[simp] theorem State.forget_st : s.forget.st = s.st := rfl
@[simp] theorem State.forget_sp : s.forget.sp = s.sp := rfl
@[simp] theorem State.forget_buf : s.forget.buf = [] := rfl
@[simp] theorem State.forget_idx : s.forget.idx = Config.freeIdx (s.draws + 1) := rfl
@[simp] theorem State.forget_rem : s.forget.rem = Config.freeRem (s.draws + 1) := rfl
@[simp] theorem State.forget_tl : s.forget.tl = clockPort s.params.clockW (Config.freeTl (s.draws + 1)) := rfl
@[simp] theorem State.forget_ev : s.forget.ev = s.ev := rfl
@[simp] theorem State.forget_tx : s.forget.tx = s.tx := rfl
@[simp] theorem State.forget_txLen : s.forget.txLen = s.txLen := rfl
@[simp] theorem State.forget_inbox : s.forget.inbox = s.inbox := rfl
@[simp] theorem State.forget_draws : s.forget.draws = s.draws + 1 := rfl

/-! `State.present` -/
@[simp] theorem State.present_params (q : List HostItem) : (s.present q).params = s.params := rfl
@[simp] theorem State.present_st (q : List HostItem) : (s.present q).st = s.st := rfl
@[simp] theorem State.present_sp (q : List HostItem) : (s.present q).sp = s.sp := rfl
@[simp] theorem State.present_buf (q : List HostItem) : (s.present q).buf = s.buf := rfl
@[simp] theorem State.present_idx (q : List HostItem) : (s.present q).idx = s.idx := rfl
@[simp] theorem State.present_rem (q : List HostItem) : (s.present q).rem = s.rem := rfl
@[simp] theorem State.present_tl (q : List HostItem) : (s.present q).tl = s.tl := rfl
@[simp] theorem State.present_ev (q : List HostItem) : (s.present q).ev = s.ev := rfl
@[simp] theorem State.present_tx (q : List HostItem) : (s.present q).tx = s.tx := rfl
@[simp] theorem State.present_txLen (q : List HostItem) : (s.present q).txLen = s.txLen := rfl
@[simp] theorem State.present_inbox (q : List HostItem) : (s.present q).inbox = q := rfl
@[simp] theorem State.present_draws (q : List HostItem) : (s.present q).draws = s.draws := rfl

end Sys2Proof.Machine
end

