-- ==== Sys2Proof/Laws/Memory.lean ====
section
/-! SUPPORT. The receive buffer: a read after a write, the canonical form that every write keeps, and what `bufAt` and
`bufSlice` give after each update of the state. -/

namespace Sys2Proof.Machine

theorem Memory.read_write (m : Memory) (i j : Nat) (b : Byte) :
    (m.write i b).read j = if j = i then some b else m.read j := by
  induction m with
  | nil => simp [Memory.write, Memory.read, eq_comm]
  | cons c m ih =>
    unfold Memory.write
    split
    · simp [Memory.read, eq_comm]
    · split
      · next h => subst h; by_cases hj : j = c.1 <;> simp [Memory.read, hj, eq_comm]
      · next h =>
        by_cases hj : c.1 = j
        · subst hj; simp [Memory.read, Ne.symm h]
        · simp [Memory.read, hj, ih]

@[simp] theorem Memory.read_write_same (m : Memory) (i : Nat) (b : Byte) : (m.write i b).read i = some b := by
  simp [Memory.read_write]

theorem Memory.read_write_other (m : Memory) {i j : Nat} (b : Byte) (h : j ≠ i) :
    (m.write i b).read j = m.read j := by
  simp [Memory.read_write, h]

/-- An entry of a written buffer is the one written or an old one. -/
theorem Memory.mem_write {m : Memory} {i : Nat} {b : Byte} {c : Host.Cell} (h : c ∈ m.write i b) :
    c = (i, b) ∨ c ∈ m := by
  induction m with
  | nil => simpa [Memory.write] using h
  | cons d m ih =>
    unfold Memory.write at h
    split at h
    · simpa using h
    · split at h
      · rcases List.mem_cons.mp h with h | h
        · exact .inl h
        · exact .inr (List.mem_cons_of_mem _ h)
      · rcases List.mem_cons.mp h with h | h
        · exact .inr (h ▸ List.mem_cons_self)
        · exact (ih h).imp id (List.mem_cons_of_mem _)

/-- Every write keeps the canonical form. -/
theorem Memory.wf_write {m : Memory} (h : m.wf) (i : Nat) (b : Byte) : (m.write i b).wf := by
  induction m with
  | nil => simp [Memory.write, Memory.wf]
  | cons c m ih =>
    have ⟨hc, hm⟩ := List.pairwise_cons.mp h
    unfold Memory.write
    split
    · next hi =>
      refine List.pairwise_cons.mpr ⟨fun d hd => ?_, h⟩
      rcases List.mem_cons.mp hd with rfl | hd
      · exact hi
      · exact hi.trans (hc d hd)
    · split
      · next hi =>
        subst hi
        exact List.pairwise_cons.mpr ⟨hc, hm⟩
      · next h1 h2 =>
        refine List.pairwise_cons.mpr ⟨fun d hd => ?_, ih hm⟩
        rcases Memory.mem_write hd with rfl | hd
        · show c.1 < i
          omega
        · exact hc d hd

/-- A write inside the buffer lists elements inside the buffer. -/
theorem Memory.within_write {m : Memory} {cap i : Nat} (h : m.within cap) (hi : i < cap) (b : Byte) :
    (m.write i b).within cap := by
  intro c hc
  rcases Memory.mem_write hc with rfl | hc
  · exact hi
  · exact h c hc

/-- `bufAt` sees the buffer and the index of the free values only. -/
theorem State.bufAt_congr {s t : State} (hb : t.buf = s.buf) (hd : t.draws = s.draws) (i : Nat) :
    t.bufAt i = s.bufAt i := by
  simp [State.bufAt, hb, hd]

@[simp] theorem State.quiet_bufAt (s : State) (i : Nat) : s.quiet.bufAt i = s.bufAt i := rfl
@[simp] theorem State.present_bufAt (s : State) (q : List HostItem) (i : Nat) : (s.present q).bufAt i = s.bufAt i := rfl
@[simp] theorem State.raise_bufAt (s : State) (e : Event) (i : Nat) : (s.raise e).bufAt i = s.bufAt i := rfl
@[simp] theorem State.output_bufAt (s : State) (w : List Byte) (i : Nat) : (s.output w).bufAt i = s.bufAt i := rfl
@[simp] theorem State.goWFS_bufAt (s : State) (i : Nat) : s.goWFS.bufAt i = s.bufAt i := rfl
@[simp] theorem State.abort_bufAt (s : State) (e : Event) (i : Nat) : (s.abort e).bufAt i = s.bufAt i := rfl
@[simp] theorem State.setSp_bufAt (s : State) (f : Bool) (i : Nat) : (s.setSp f).bufAt i = s.bufAt i := rfl
@[simp] theorem State.countDown_bufAt (s : State) (i : Nat) : s.countDown.bufAt i = s.bufAt i := rfl
@[simp] theorem State.enterRH_bufAt (s : State) (now i : Nat) : (s.enterRH now).bufAt i = s.bufAt i := rfl
@[simp] theorem State.enterRP_bufAt (s : State) (len : Byte) (i : Nat) : (s.enterRP len).bufAt i = s.bufAt i := rfl

/-- An accepted octet stands at the old `idx`; every other element reads as before. -/
theorem State.accept_bufAt (s : State) (b : Byte) (now i : Nat) :
    (s.accept b now).bufAt i = if i = s.idx.toNat then b else s.bufAt i := by
  by_cases h : i = s.idx.toNat <;> simp [State.bufAt, Memory.read_write, h]

/-- After RESET every element holds a free value. -/
@[simp] theorem State.forget_bufAt (s : State) (i : Nat) :
    s.forget.bufAt i = Config.freeByte (s.draws + 1) i := rfl

@[simp] theorem State.bufSlice_length (s : State) (a n : Nat) : (s.bufSlice a n).length = n := by
  simp [State.bufSlice]

theorem State.bufSlice_getD (s : State) {a n i : Nat} (h : i < n) : (s.bufSlice a n).getD i 0 = s.bufAt (a + i) := by
  simp [State.bufSlice, List.getD, h]

/-- The first octets of a slice. -/
theorem State.bufSlice_take (s : State) (a : Nat) {m n : Nat} (h : m ≤ n) :
    (s.bufSlice a n).take m = s.bufSlice a m := by
  simp [State.bufSlice, ← List.map_take, List.take_range, h]

/-- A slice without its first octets. -/
theorem State.bufSlice_drop (s : State) (a m n : Nat) : (s.bufSlice a (m + n)).drop m = s.bufSlice (a + m) n := by
  simp [State.bufSlice, List.range_add, Nat.add_assoc]

/-- Slices of buffers that agree on their indices are equal. -/
theorem State.bufSlice_congr {s t : State} {a n : Nat} (h : ∀ i < n, s.bufAt (a + i) = t.bufAt (a + i)) :
    s.bufSlice a n = t.bufSlice a n :=
  List.map_congr_left fun i hi => h i (List.mem_range.mp hi)

@[simp] theorem State.raw_length (s : State) : s.raw.length = s.idx.toNat := by
  simp [State.raw]

/-- Octet `i` of the raw frame is `buf[i]`, for every `i` below `idx` (R30). -/
theorem State.rawOctet_raw (s : State) {i : Nat} (h : i < s.idx.toNat) : rawOctet s.raw i = s.bufAt i := by
  simpa [rawOctet, State.raw] using s.bufSlice_getD (a := 0) h

end Sys2Proof.Machine
end

