-- ==== Sys2Proof/Laws/Codec.lean ====
section
/-! SUPPORT. Fields, sums, lengths and clock values: the small lemmas of Operands.lean and Codec.lean. -/

namespace Sys2Proof.Machine

@[simp] theorem be16_hi_lo (v : Half) : be16 (hiOctet v) (loOctet v) = v := by
  simp only [be16, hiOctet, loOctet]
  ext i hi
  simp only [BitVec.getElem_append, BitVec.getElem_extractLsb']
  split
  · simp [BitVec.getLsbD_eq_getElem, hi]
  · simp [BitVec.getLsbD_eq_getElem, show 8 + (i - 8) = i by omega, hi]

@[simp] theorem hiOctet_be16 (hi lo : Byte) : hiOctet (be16 hi lo) = hi := by
  apply BitVec.eq_of_getLsbD_eq
  intro i hlt
  have h : (be16 hi lo).getLsbD (8 + i) = _ := BitVec.getLsbD_append
  simp [hiOctet, hlt, h]

@[simp] theorem loOctet_be16 (hi lo : Byte) : loOctet (be16 hi lo) = lo := by
  apply BitVec.eq_of_getLsbD_eq
  intro i hlt
  have h : (be16 hi lo).getLsbD i = _ := BitVec.getLsbD_append
  simp [loOctet, hlt, h]

/-- The value of a field of two octets (R31). -/
theorem be16_toNat (hi lo : Byte) : (be16 hi lo).toNat = hi.toNat * 256 + lo.toNat := by
  rw [be16, BitVec.toNat_append, ← Nat.shiftLeft_add_eq_or_of_lt lo.isLt, Nat.shiftLeft_eq]

/-- The values of a field's two octets (R31). -/
theorem octets16_toNat (v : Half) : (octets16 v).map BitVec.toNat = [v.toNat / 256, v.toNat % 256] := by
  have := v.isLt
  simp [octets16, hiOctet, loOctet, BitVec.extractLsb'_toNat, Nat.shiftRight_eq_div_pow]
  omega

@[simp] theorem octets16_be16 (hi lo : Byte) : octets16 (be16 hi lo) = [hi, lo] := by
  simp [octets16]

@[simp] theorem hiOctet_zero : hiOctet 0#16 = 0#8 := rfl
@[simp] theorem loOctet_zero : loOctet 0#16 = 0#8 := rfl

@[simp] theorem octets16_length (v : Half) : (octets16 v).length = 2 := rfl

@[simp] theorem sum16_nil : sum16 [] = 0 := rfl

theorem sum16_cons (b : Byte) (s : List Byte) : sum16 (b :: s) = b.setWidth 16 + sum16 s := by
  apply BitVec.eq_of_toNat_eq
  simp [sum16, BitVec.toNat_ofNat, BitVec.toNat_add]

theorem sum16_append (s t : List Byte) : sum16 (s ++ t) = sum16 s + sum16 t := by
  induction s with
  | nil => simp
  | cons b s ih => rw [List.cons_append, sum16_cons, sum16_cons, ih, BitVec.add_assoc]

theorem lengthOctet_toNat {payload : List Byte} (h : payload.length ≤ lenMax) :
    (lengthOctet payload).toNat = payload.length := by
  have : payload.length ≤ 255 := h
  simp [lengthOctet, BitVec.toNat_ofNat]
  omega

theorem payloadFits_iff {payload : List Byte} : payloadFits payload = true ↔ payload.length ≤ lenMax := by
  simp [payloadFits]

theorem serialFits_iff {serial : List Byte} : serialFits serial = true ↔ serial.length = 10 := by
  simp [serialFits]

theorem telemetryFits_iff {payload : List Byte} :
    telemetryFits payload = true ↔ 44 ≤ payload.length ∧ payload.length ≤ lenMax := by
  simp [telemetryFits, payloadFits]

@[simp] theorem summedOctets_length (src dst : Half) (ctrl func : Byte) (payload : List Byte) :
    (summedOctets src dst ctrl func payload).length = 9 + payload.length := by
  simp [summedOctets]
  omega

@[simp] theorem wireFrame_length (src dst : Half) (ctrl func : Byte) (payload : List Byte) :
    (wireFrame src dst ctrl func payload).length = 11 + payload.length := by
  simp [wireFrame]
  omega

/-- The summed octets, one by one (R37). -/
theorem summedOctets_eq (src dst : Half) (ctrl func : Byte) (payload : List Byte) :
    summedOctets src dst ctrl func payload =
      [0x55#8, 0xAA#8, hiOctet src, loOctet src, hiOctet dst, loOctet dst, ctrl, func, lengthOctet payload] ++
        payload := by
  simp [summedOctets, octets16, sync0, sync1]

/-- A wire frame begins with the first sync octet. -/
theorem wireFrame_eq_cons (src dst : Half) (ctrl func : Byte) (payload : List Byte) :
    wireFrame src dst ctrl func payload = sync0 :: (wireFrame src dst ctrl func payload).tail := rfl

/-! ### The clock -/

theorem clockPort_lt (clockW now : Nat) : clockPort clockW now < 2 ^ clockW :=
  Nat.mod_lt _ (Nat.two_pow_pos clockW)

theorem elapsed_lt (clockW now t : Nat) : elapsed clockW now t < 2 ^ clockW := by
  have hpos : ((2 ^ clockW : Nat) : Int) > 0 := by exact_mod_cast Nat.two_pow_pos clockW
  have h1 := Int.emod_lt_of_pos ((now : Int) - t) hpos
  have h0 := Int.emod_nonneg ((now : Int) - t) (ne_of_gt hpos)
  unfold elapsed
  omega

/-- Only the low `CLOCK_W` bits of the clock values count. -/
theorem elapsed_clockPort (clockW now t : Nat) : elapsed clockW now (clockPort clockW t) = elapsed clockW now t := by
  unfold elapsed clockPort
  rw [Int.natCast_emod, Int.sub_emod, Int.emod_emod_of_dvd _ (dvd_refl _), ← Int.sub_emod]

theorem elapsed_clockPort_left (clockW now t : Nat) :
    elapsed clockW (clockPort clockW now) t = elapsed clockW now t := by
  unfold elapsed clockPort
  rw [Int.natCast_emod, Int.sub_emod, Int.emod_emod_of_dvd _ (dvd_refl _), ← Int.sub_emod]

/-- Within one wrap period the elapsed time is the plain difference. -/
theorem elapsed_of_le {clockW now t : Nat} (h : t ≤ now) (hlt : now - t < 2 ^ clockW) :
    elapsed clockW now t = now - t := by
  unfold elapsed
  rw [Int.emod_eq_of_lt (by omega) (by omega)]
  omega

@[simp] theorem elapsed_self (clockW t : Nat) : elapsed clockW t t = 0 := by
  simp [elapsed]

/-! ### decode -/

/-- `decode` answers on raw frames of the right length, and what it answers is the validation (R51, R52). -/
theorem decodeRaw_eq_some {raw : List Byte} {v : Validation} (h : decodeRaw raw = some v) :
    (hdrLen ≤ raw.length ∧ raw.length = hdrLen + csLen + (rawOctet raw 6).toNat) ∧ v = validate raw := by
  unfold decodeRaw at h
  split at h
  · next hl => exact ⟨hl, by simpa using h.symm⟩
  · cases h

/-- A validation is a mismatch of the two checksums, or the fields with equal checksums. -/
theorem validate_cases (raw : List Byte) :
    ((rawFields raw).cs ≠ checksumRaw raw ∧ validate raw = .mismatch (rawFields raw).cs (checksumRaw raw)) ∨
    ((rawFields raw).cs = checksumRaw raw ∧ validate raw = .ok (rawFields raw)) := by
  unfold validate
  split
  · next h => exact .inl ⟨h, rfl⟩
  · next h => exact .inr ⟨not_not.mp h, rfl⟩

end Sys2Proof.Machine
end

