-- ==== Sys2Proof/Laws/Receive.lean ====
section
/-! SUPPORT. What each procedure of the assembler can do: the stall check, the four octet procedures, completion. -/

namespace Sys2Proof.Machine

/-! ### The stall check (R57) -/

theorem State.stalled_iff {s : State} {now : Nat} :
    s.stalled now = true ↔ s.st ≠ .wfs ∧ stallMs < elapsed s.params.clockW now s.tl := by
  simp [State.stalled]

theorem State.stallCheck_cases (s : State) (now : Nat) :
    (s.stalled now = true ∧ s.stallCheck now = s.abort (.frameTimeout s.st s.idx)) ∨
    (s.stalled now = false ∧ s.stallCheck now = s) := by
  unfold State.stallCheck
  cases h : s.stalled now <;> simp

theorem State.stallCheck_of_stalled {s : State} {now : Nat} (h : s.stalled now = true) :
    s.stallCheck now = s.abort (.frameTimeout s.st s.idx) := by
  simp [State.stallCheck, h]

theorem State.stallCheck_of_not_stalled {s : State} {now : Nat} (h : s.stalled now = false) : s.stallCheck now = s := by
  simp [State.stallCheck, h]

/-- In WFS the check does nothing, because no stall timer runs there (R57). -/
theorem State.stalled_wfs {s : State} (h : s.st = .wfs) (now : Nat) : s.stalled now = false := by
  simp [State.stalled, h]

/-- Within the window a frame is not stalled. -/
theorem State.stalled_of_le {s : State} {now : Nat} (h : elapsed s.params.clockW now s.tl ≤ stallMs) :
    s.stalled now = false := by
  simp [State.stalled, Nat.not_lt.mpr h]

/-- A frame that is not stalled is within the window, or there is none. -/
theorem State.stalled_eq_false {s : State} {now : Nat} :
    s.stalled now = false ↔ s.st = .wfs ∨ elapsed s.params.clockW now s.tl ≤ stallMs := by
  rw [← Bool.not_eq_true, State.stalled_iff, not_and_or, not_not, not_lt]

@[simp] theorem State.quiet_stalled (s : State) (now : Nat) : s.quiet.stalled now = s.stalled now := rfl

@[simp] theorem State.present_stalled (s : State) (q : List HostItem) (now : Nat) :
    (s.present q).stalled now = s.stalled now := rfl

section
variable (s : State) (now : Nat)

@[simp] theorem State.stallCheck_params : (s.stallCheck now).params = s.params := by
  unfold State.stallCheck; split <;> rfl
@[simp] theorem State.stallCheck_buf : (s.stallCheck now).buf = s.buf := by
  unfold State.stallCheck; split <;> rfl
@[simp] theorem State.stallCheck_idx : (s.stallCheck now).idx = s.idx := by
  unfold State.stallCheck; split <;> rfl
@[simp] theorem State.stallCheck_rem : (s.stallCheck now).rem = s.rem := by
  unfold State.stallCheck; split <;> rfl
@[simp] theorem State.stallCheck_tl : (s.stallCheck now).tl = s.tl := by
  unfold State.stallCheck; split <;> rfl
@[simp] theorem State.stallCheck_tx : (s.stallCheck now).tx = s.tx := by
  unfold State.stallCheck; split <;> rfl
@[simp] theorem State.stallCheck_txLen : (s.stallCheck now).txLen = s.txLen := by
  unfold State.stallCheck; split <;> rfl
@[simp] theorem State.stallCheck_inbox : (s.stallCheck now).inbox = s.inbox := by
  unfold State.stallCheck; split <;> rfl
@[simp] theorem State.stallCheck_draws : (s.stallCheck now).draws = s.draws := by
  unfold State.stallCheck; split <;> rfl
@[simp] theorem State.stallCheck_bufAt (i : Nat) : (s.stallCheck now).bufAt i = s.bufAt i := by
  unfold State.stallCheck; split <;> rfl

end

/-! ### Storing an octet (R60, R62) -/

/-- An accepted octet had an element to stand in. -/
theorem storeOctet_next {b : Byte} {now : Nat} {s t : State} {k : State → Result}
    (h : storeOctet b now s k = .next t) : s.idx.toNat < s.params.bufCap ∧ k (s.accept b now) = .next t := by
  unfold storeOctet at h
  split at h
  · next hi => exact ⟨hi, h⟩
  · cases h

theorem storeOctet_of_lt {b : Byte} {now : Nat} {s : State} {k : State → Result}
    (h : s.idx.toNat < s.params.bufCap) : storeOctet b now s k = k (s.accept b now) := by
  simp [storeOctet, h]

/-! ### The octet procedures -/

/-- ByteWFS starts a header on `55 AA`, and otherwise remembers whether the octet was 55 (R59). -/
theorem byteWFS_cases (b : Byte) (now : Nat) (s : State) :
    (s.sp = true ∧ b = sync1 ∧ byteWFS b now s = s.enterRH now) ∨
    (¬(s.sp = true ∧ b = sync1) ∧ byteWFS b now s = s.setSp (partialSync b)) := by
  unfold byteWFS syncCompletes
  by_cases h : s.sp = true ∧ b = sync1
  · exact .inl ⟨h.1, h.2, by simp [h.1, h.2]⟩
  · refine .inr ⟨h, if_neg ?_⟩
    simpa using h

/-- LengthCheck rejects a frame that does not fit, and otherwise starts the countdown (R61). -/
theorem lengthCheck_cases (len : Byte) (s : State) :
    (s.params.bufCap < hdrLen + csLen + len.toNat ∧ lengthCheck len s = s.abort (.bufferOverflowRisk len)) ∨
    (hdrLen + csLen + len.toNat ≤ s.params.bufCap ∧ lengthCheck len s = s.enterRP len) := by
  unfold lengthCheck
  split
  · next h => exact .inl ⟨h, rfl⟩
  · next h => exact .inr ⟨not_lt.mp h, rfl⟩

/-- ByteRH stores the octet; on the seventh it runs LengthCheck (R60). -/
theorem byteRH_cases {b : Byte} {now : Nat} {s t : State} (h : byteRH b now s = .next t) :
    s.idx.toNat < s.params.bufCap ∧
    ((s.idx + 1#9 ≠ 7#9 ∧ t = s.accept b now) ∨ (s.idx + 1#9 = 7#9 ∧ t = lengthCheck b (s.accept b now))) := by
  obtain ⟨hi, hk⟩ := storeOctet_next h
  refine ⟨hi, ?_⟩
  by_cases h7 : s.idx + 1#9 = 7#9
  · exact .inr ⟨h7, by simpa [h7] using hk.symm⟩
  · exact .inl ⟨h7, by simpa [h7] using hk.symm⟩

/-- Complete hands the frame on, or reports the mismatch; either way the assembler is back in WFS (R63). -/
theorem complete_cases {s t : State} (h : complete s = .next t) :
    (hdrLen ≤ s.raw.length ∧ s.raw.length = hdrLen + csLen + (rawOctet s.raw 6).toNat) ∧
    (((rawFields s.raw).cs = checksumRaw s.raw ∧ t = s.abort (.frame (rawFields s.raw))) ∨
     ((rawFields s.raw).cs ≠ checksumRaw s.raw ∧
      t = s.abort (.checksumMismatch (rawFields s.raw).cs (checksumRaw s.raw)))) := by
  unfold complete at h
  split at h
  · cases h
  · next f hd =>
    obtain ⟨hl, hv⟩ := decodeRaw_eq_some hd
    refine ⟨hl, .inl ?_⟩
    rcases validate_cases s.raw with ⟨_, hv'⟩ | ⟨hc, hv'⟩
    · rw [hv'] at hv; cases hv
    · rw [hv'] at hv; cases hv; cases h; exact ⟨hc, rfl⟩
  · next r c hd =>
    obtain ⟨hl, hv⟩ := decodeRaw_eq_some hd
    refine ⟨hl, .inr ?_⟩
    rcases validate_cases s.raw with ⟨hc, hv'⟩ | ⟨_, hv'⟩
    · rw [hv'] at hv; cases hv; cases h; exact ⟨hc, rfl⟩
    · rw [hv'] at hv; cases hv

/-- ByteRP stores the octet and counts down; at 0 it completes the frame (R62). -/
theorem byteRP_cases {b : Byte} {now : Nat} {s t : State} (h : byteRP b now s = .next t) :
    s.idx.toNat < s.params.bufCap ∧
    ((s.rem - 1#9 ≠ 0#9 ∧ t = (s.accept b now).countDown) ∨
     (s.rem - 1#9 = 0#9 ∧ complete (s.accept b now).countDown = .next t)) := by
  obtain ⟨hi, hk⟩ := storeOctet_next h
  refine ⟨hi, ?_⟩
  by_cases h0 : s.rem - 1#9 = 0#9
  · exact .inr ⟨h0, by simpa [h0] using hk⟩
  · exact .inl ⟨h0, by simpa [h0] using hk.symm⟩

/-- The octet is taken by the procedure of the state (R58). -/
theorem byteIn_cases {b : Byte} {now : Nat} {s t : State} (h : byteIn b now s = .next t) :
    (s.st = .wfs ∧ t = byteWFS b now s) ∨ (s.st = .rh ∧ byteRH b now s = .next t) ∨
    (s.st = .rp ∧ byteRP b now s = .next t) := by
  unfold byteIn at h
  split at h
  · next hs => cases h; exact .inl ⟨hs, rfl⟩
  · next hs => exact .inr (.inl ⟨hs, h⟩)
  · next hs => exact .inr (.inr ⟨hs, h⟩)

/-- One BYTE step: a stalled frame is aborted and the octet examined in WFS; otherwise the octet is taken in the state
as it stands (R58, R76). -/
theorem byteStep_cases {b : Byte} {now : Nat} {s t : State} (h : byteStep b now s = .next t) :
    (s.stalled now = true ∧
      t = (s.quiet.abort (.frameTimeout s.st s.idx)).setSp (partialSync b)) ∨
    (s.stalled now = false ∧ byteIn b now s.quiet = .next t) := by
  unfold byteStep at h
  rcases s.quiet.stallCheck_cases now with ⟨hs, he⟩ | ⟨hs, he⟩
  · refine .inl ⟨by simpa using hs, ?_⟩
    rw [he] at h
    cases h
    rcases byteWFS_cases b now (s.quiet.abort (.frameTimeout s.st s.idx)) with ⟨hsp, _, _⟩ | ⟨_, hw⟩
    · simp at hsp
    · exact hw
  · rw [he] at h
    exact .inr ⟨by simpa using hs, h⟩

/-! ### The counters -/

/-- The seventh header octet is the one accepted at index 6 (R60). -/
theorem idx_eq_six {x : BitVec 9} (h : x + 1#9 = 7#9) : x = 6#9 := by bv_omega

/-- The last octet is the one accepted with one to come (R62). -/
theorem rem_eq_one {x : BitVec 9} (h : x - 1#9 = 0#9) : x = 1#9 := by bv_omega

/-! ### The same procedures, forwards -/

theorem byteStep_of_stalled {b : Byte} {now : Nat} {s : State} (h : s.stalled now = true) :
    byteStep b now s = .next ((s.quiet.abort (.frameTimeout s.st s.idx)).setSp (partialSync b)) := by
  unfold byteStep
  rw [State.stallCheck_of_stalled (by simpa using h)]
  rfl

theorem byteStep_of_not_stalled {b : Byte} {now : Nat} {s : State} (h : s.stalled now = false) :
    byteStep b now s = byteIn b now s.quiet := by
  unfold byteStep
  rw [State.stallCheck_of_not_stalled (by simpa using h)]

theorem byteIn_wfs {b : Byte} {now : Nat} {s : State} (h : s.st = .wfs) : byteIn b now s = .next (byteWFS b now s) := by
  unfold byteIn; rw [h]

theorem byteIn_rh {b : Byte} {now : Nat} {s : State} (h : s.st = .rh) : byteIn b now s = byteRH b now s := by
  unfold byteIn; rw [h]

theorem byteIn_rp {b : Byte} {now : Nat} {s : State} (h : s.st = .rp) : byteIn b now s = byteRP b now s := by
  unfold byteIn; rw [h]

theorem byteRH_of_lt {b : Byte} {now : Nat} {s : State} (h : s.idx.toNat < s.params.bufCap) :
    byteRH b now s =
      .next (if s.idx + 1#9 = 7#9 then lengthCheck b (s.accept b now) else s.accept b now) :=
  storeOctet_of_lt h

theorem byteRP_of_lt {b : Byte} {now : Nat} {s : State} (h : s.idx.toNat < s.params.bufCap) :
    byteRP b now s =
      if s.rem - 1#9 = 0#9 then complete (s.accept b now).countDown else .next (s.accept b now).countDown :=
  storeOctet_of_lt h

/-- Completion of a raw frame of the right length answers a next state: the validation of the frame, in WFS (R63). -/
theorem complete_of_length {s : State} (h : s.idx.toNat = hdrLen + csLen + (s.bufAt 6).toNat) :
    complete s = .next (s.abort (match validate s.raw with
      | .ok fields => .frame fields
      | .mismatch cRx cCalc => .checksumMismatch cRx cCalc)) := by
  have h6 : rawOctet s.raw 6 = s.bufAt 6 := s.rawOctet_raw (by simp only [hdrLen, csLen] at h; omega)
  have hd : decodeRaw s.raw = some (validate s.raw) := by
    unfold decodeRaw
    rw [if_pos]
    rw [State.raw_length, h6]
    exact ⟨by simp only [hdrLen, csLen] at h ⊢; omega, h⟩
  unfold complete
  rw [hd]
  cases validate s.raw <;> rfl

/-- The validation of a whole raw frame in the buffer, by the buffer's own elements (R51, R29). -/
theorem validate_raw {s : State} {L : Nat} (hL : (s.bufAt 6).toNat = L) (h : s.idx.toNat = 9 + L) :
    validate s.raw =
      let cRx := be16 (s.bufAt (7 + L)) (s.bufAt (8 + L))
      let cCalc := sum16 ([0x55#8, 0xAA#8] ++ s.bufSlice 0 (7 + L))
      if cRx = cCalc then
        .ok { src := s.bufField 0, dst := s.bufField 2, ctrl := s.bufAt 4, func := s.bufAt 5, len := s.bufAt 6
              payload := s.bufSlice 7 L, cs := cRx }
      else .mismatch cRx cCalc := by
  subst hL
  have ho : ∀ i < 9 + (s.bufAt 6).toNat, rawOctet s.raw i = s.bufAt i := fun i hi => s.rawOctet_raw (by omega)
  have hcc : checksumRaw s.raw = sum16 ([0x55#8, 0xAA#8] ++ s.bufSlice 0 (7 + (s.bufAt 6).toNat)) := by
    rw [checksumRaw, ho 6 (by omega), State.raw, s.bufSlice_take 0 (by simp only [hdrLen]; omega)]
    rfl
  have hp : (s.raw.drop hdrLen).take (s.bufAt 6).toNat = s.bufSlice 7 (s.bufAt 6).toNat := by
    rw [State.raw, show s.idx.toNat = hdrLen + (2 + (s.bufAt 6).toNat) by simp only [hdrLen]; omega, s.bufSlice_drop,
      s.bufSlice_take _ (by omega)]
    rfl
  have hcs : rawField s.raw (hdrLen + (s.bufAt 6).toNat) =
      be16 (s.bufAt (7 + (s.bufAt 6).toNat)) (s.bufAt (8 + (s.bufAt 6).toNat)) := by
    rw [rawField, hdrLen, ho _ (by omega), ho _ (by omega), show 7 + (s.bufAt 6).toNat + 1 = 8 + (s.bufAt 6).toNat by omega]
  have hf : rawFields s.raw =
      { src := s.bufField 0, dst := s.bufField 2, ctrl := s.bufAt 4, func := s.bufAt 5, len := s.bufAt 6
        payload := s.bufSlice 7 (s.bufAt 6).toNat
        cs := be16 (s.bufAt (7 + (s.bufAt 6).toNat)) (s.bufAt (8 + (s.bufAt 6).toNat)) } := by
    rw [rawFields, ho 6 (by omega), hp, hcs, ho 4 (by omega), ho 5 (by omega)]
    simp only [rawField, State.bufField, Nat.zero_add, Nat.reduceAdd]
    rw [ho 0 (by omega), ho 1 (by omega), ho 2 (by omega), ho 3 (by omega)]
  rw [validate, hcc, hf]
  simp only [ne_eq, ite_not]

end Sys2Proof.Machine
end

