-- ==== Sys2Proof/Laws/Exec.lean ====
section
/-! SUPPORT. What `exec` and `step` can do: their inversion lemmas, and ENCODE's and the inbound kinds' spec lemmas. -/

namespace Sys2Proof.Machine

/-- ENCODE of a payload that fits puts the wire frame on `tx` and changes no register (R50). -/
theorem encodeFrame_of_fits {payload : List Byte} (h : payload.length ≤ lenMax) (dst : Half) (ctrl func : Byte)
    (s : State) :
    encodeFrame dst ctrl func payload s =
      .next (s.quiet.output (wireFrame s.params.masterId dst ctrl func payload)) := by
  simp [encodeFrame, payloadFits_iff.mpr h]

theorem encodeFrame_next {dst : Half} {ctrl func : Byte} {payload : List Byte} {s t : State}
    (h : encodeFrame dst ctrl func payload s = .next t) :
    payload.length ≤ lenMax ∧ t = s.quiet.output (wireFrame s.params.masterId dst ctrl func payload) := by
  unfold encodeFrame at h
  split at h
  · next hp => exact ⟨payloadFits_iff.mp hp, by simpa using h.symm⟩
  · cases h

/-- BYTES of a wire frame: this step is the BYTE of the first sync octet, the rest is presented next (R46). -/
theorem presentBytes_wireFrame (src dst : Half) (ctrl func : Byte) (payload : List Byte) (t0 d : Nat) (s : State) :
    presentBytes (wireFrame src dst ctrl func payload) t0 d s =
      byteStep sync0 t0
        (s.present (bytesAt (wireFrame src dst ctrl func payload).tail (t0 + d) d ++ s.inbox)) := rfl

/-- Everything that taking one octet can do to the state, by the row of R69's transition table that it follows. -/
inductive OctetStep (b : Byte) (now : Nat) (s t : State) : Prop where
  /-- The frame has stalled: it is aborted and the octet examined in WFS. -/
  | late (hw : s.stalled now = true)
      (ht : t = (s.quiet.abort (.frameTimeout s.st s.idx)).setSp (partialSync b))
  /-- The octet completes `55 AA`. -/
  | sync (hs : s.st = .wfs) (hsp : s.sp = true) (hb : b = sync1) (ht : t = s.quiet.enterRH now)
  /-- Any other octet in WFS. -/
  | hunt (hs : s.st = .wfs) (hb : ¬(s.sp = true ∧ b = sync1)) (ht : t = s.quiet.setSp (partialSync b))
  /-- One of the first six header octets. -/
  | header (hs : s.st = .rh) (hw : s.stalled now = false) (hi : s.idx.toNat < s.params.bufCap)
      (h7 : s.idx + 1#9 ≠ 7#9) (ht : t = s.quiet.accept b now)
  /-- The length octet of a frame that does not fit. -/
  | reject (hs : s.st = .rh) (hw : s.stalled now = false) (hi : s.idx.toNat < s.params.bufCap)
      (h7 : s.idx + 1#9 = 7#9) (hl : s.params.bufCap < hdrLen + csLen + b.toNat)
      (ht : t = (s.quiet.accept b now).abort (.bufferOverflowRisk b))
  /-- The length octet of a frame that fits. -/
  | declare (hs : s.st = .rh) (hw : s.stalled now = false) (hi : s.idx.toNat < s.params.bufCap)
      (h7 : s.idx + 1#9 = 7#9) (hl : hdrLen + csLen + b.toNat ≤ s.params.bufCap)
      (ht : t = (s.quiet.accept b now).enterRP b)
  /-- A payload or checksum octet that is not the last. -/
  | payload (hs : s.st = .rp) (hw : s.stalled now = false) (hi : s.idx.toNat < s.params.bufCap)
      (hr : s.rem - 1#9 ≠ 0#9) (ht : t = (s.quiet.accept b now).countDown)
  /-- The last octet of a frame. -/
  | last (hs : s.st = .rp) (hw : s.stalled now = false) (hi : s.idx.toNat < s.params.bufCap)
      (hr : s.rem - 1#9 = 0#9) (ht : complete (s.quiet.accept b now).countDown = .next t)

/-- A BYTE step that answers a next state follows one of the rows. -/
theorem byteStep_octetStep {b : Byte} {now : Nat} {s t : State} (h : byteStep b now s = .next t) :
    OctetStep b now s t := by
  rcases byteStep_cases h with ⟨hw, rfl⟩ | ⟨hw, h⟩
  · exact .late hw rfl
  rcases byteIn_cases h with ⟨hs, rfl⟩ | ⟨hs, h⟩ | ⟨hs, h⟩
  · rcases byteWFS_cases b now s.quiet with ⟨hsp, hb, h⟩ | ⟨hb, h⟩ <;> rw [h]
    · exact .sync hs hsp hb rfl
    · exact .hunt hs hb rfl
  · obtain ⟨hi, ⟨h7, rfl⟩ | ⟨h7, rfl⟩⟩ := byteRH_cases h
    · exact .header hs hw hi h7 rfl
    · rcases lengthCheck_cases b (s.quiet.accept b now) with ⟨hl, h⟩ | ⟨hl, h⟩ <;> rw [h]
      · exact .reject hs hw hi h7 hl rfl
      · exact .declare hs hw hi h7 hl rfl
  · obtain ⟨hi, ⟨hr, rfl⟩ | ⟨hr, h⟩⟩ := byteRP_cases h
    · exact .payload hs hw hi hr rfl
    · exact .last hs hw hi hr h

/-- An instruction that takes an octet is a BYTE step: BYTE itself, or the first sync octet of an inbound kind, with
the octets after it presented next. -/
theorem exec_octet {i : Instr} {s t : State} {b : Byte} {now : Nat} (hb : octetTaken i = some b)
    (hn : clockUsed i = some now) (h : exec i s = .next t) :
    ∃ q, (i = .byte b now → q = s.inbox) ∧ byteStep b now (s.present q) = .next t := by
  have inbound : ∀ {src dst ctrl func payload t0 d}, b = sync0 → now = t0 →
      presentBytes (wireFrame src dst ctrl func payload) t0 d s = .next t →
      ∃ q, byteStep b now (s.present q) = .next t := by
    rintro src dst ctrl func payload t0 d rfl rfl hx
    exact ⟨_, (presentBytes_wireFrame ..).symm.trans hx⟩
  cases i with
  | byte b' now' =>
    cases hb
    cases hn
    exact ⟨s.inbox, fun _ => rfl, h⟩
  | registrationRequest src dst serial t0 d =>
    simp only [exec, execRegistrationRequest] at h
    split at h
    · obtain ⟨q, hq⟩ := inbound (Option.some.inj hb).symm (Option.some.inj hn).symm h
      exact ⟨q, nofun, hq⟩
    · cases h
  | registrationConfirmation src dst payload t0 d =>
    simp only [exec, execRegistrationConfirmation] at h
    split at h
    · obtain ⟨q, hq⟩ := inbound (Option.some.inj hb).symm (Option.some.inj hn).symm h
      exact ⟨q, nofun, hq⟩
    · cases h
  | informationResponse src dst payload t0 d =>
    simp only [exec, execInformationResponse] at h
    split at h
    · obtain ⟨q, hq⟩ := inbound (Option.some.inj hb).symm (Option.some.inj hn).symm h
      exact ⟨q, nofun, hq⟩
    · cases h
  | tick _ => cases hb
  | encode _ _ _ _ => cases hb
  | reset => cases hb
  | discovery => cases hb
  | allocateAddress _ _ => cases hb
  | informationRequest _ => cases hb

/-- An instruction that takes no octet checks the time (TICK), transmits a frame, or resets. -/
theorem exec_no_octet {i : Instr} {s t : State} (hb : octetTaken i = none) (h : exec i s = .next t) :
    (∃ now, i = .tick now ∧ t = s.quiet.stallCheck now) ∨
    (i ≠ .reset ∧ clockUsed i = none ∧ ∃ dst ctrl func payload, payload.length ≤ lenMax ∧
      t = s.quiet.output (wireFrame s.params.masterId dst ctrl func payload)) ∨
    (i = .reset ∧ t = s.quiet.goWFS.forget) := by
  have enc : ∀ {dst ctrl func payload}, encodeFrame dst ctrl func payload s = .next t →
      ∃ dst ctrl func payload, payload.length ≤ lenMax ∧
        t = s.quiet.output (wireFrame s.params.masterId dst ctrl func payload) :=
    fun hx => ⟨_, _, _, _, encodeFrame_next hx⟩
  cases i with
  | tick now => exact .inl ⟨now, rfl, by simpa [exec, execTick] using h.symm⟩
  | encode dst ctrl func payload => exact .inr (.inl ⟨nofun, rfl, enc h⟩)
  | reset => exact .inr (.inr ⟨rfl, by simpa [exec, execReset] using h.symm⟩)
  | discovery =>
    simp only [exec, execDiscovery] at h
    exact .inr (.inl ⟨nofun, rfl, enc h⟩)
  | allocateAddress serial address =>
    simp only [exec, execAllocateAddress] at h
    split at h
    · exact .inr (.inl ⟨nofun, rfl, enc h⟩)
    · cases h
  | informationRequest target =>
    simp only [exec, execInformationRequest] at h
    exact .inr (.inl ⟨nofun, rfl, enc h⟩)
  | byte _ _ => cases hb
  | registrationRequest _ _ _ _ _ => cases hb
  | registrationConfirmation _ _ _ _ _ => cases hb
  | informationResponse _ _ _ _ _ => cases hb

/-- An instruction that takes an octet compares a clock value. -/
theorem clockUsed_of_octetTaken {i : Instr} {b : Byte} (hb : octetTaken i = some b) : ∃ now, clockUsed i = some now := by
  cases i <;> first | exact ⟨_, rfl⟩ | cases hb

/-- Everything that an instruction can do when it answers a next state: take one octet, check the time, transmit a
frame, reset. -/
theorem exec_cases {i : Instr} {s t : State} (h : exec i s = .next t) :
    (∃ b now q, octetTaken i = some b ∧ clockUsed i = some now ∧ (i = .byte b now → q = s.inbox) ∧
      OctetStep b now (s.present q) t) ∨
    (∃ now, i = .tick now ∧ t = s.quiet.stallCheck now) ∨
    (i ≠ .reset ∧ octetTaken i = none ∧ clockUsed i = none ∧ ∃ dst ctrl func payload, payload.length ≤ lenMax ∧
      t = s.quiet.output (wireFrame s.params.masterId dst ctrl func payload)) ∨
    (i = .reset ∧ t = s.quiet.goWFS.forget) := by
  cases hb : octetTaken i with
  | some b =>
    obtain ⟨now, hn⟩ := clockUsed_of_octetTaken hb
    obtain ⟨q, hq, hx⟩ := exec_octet hb hn h
    exact .inl ⟨b, now, q, rfl, hn, hq, byteStep_octetStep hx⟩
  | none =>
    rcases exec_no_octet hb h with h | ⟨h1, h2, h3⟩ | h
    · exact .inr (.inl h)
    · exact .inr (.inr (.inl ⟨h1, rfl, h2, h3⟩))
    · exact .inr (.inr (.inr h))

/-- Everything that a step can do when it answers a next state: nothing is presented and the outputs fall quiet, or the
oldest entry is decoded and run. -/
theorem step_cases {s t : State} (h : step s = .next t) :
    (s.inbox = [] ∧ t = s.quiet) ∨
    (∃ item rest i, s.inbox = item :: rest ∧ decode item = .ok i ∧ exec i (s.present rest) = .next t) := by
  unfold step at h
  split at h
  · next hq => exact .inl ⟨hq, by simpa using h.symm⟩
  · next item rest hq =>
    split at h
    · next i hd => exact .inr ⟨item, rest, i, hq, hd, h⟩
    · cases h

/-- A BYTE's own word is read back as it. -/
theorem decode_encode_byte (b : Byte) (now : Nat) : decode (encode (.byte b now)) = .ok (.byte b now) := by
  have h : ∀ b : BitVec 8, decodeCommandWord (encodeCommandWord (.byte b)) = some (.byte b) := by decide
  simp [decode, encode, decodePorts, h b]

/-- A step to which a BYTE is presented takes its octet. -/
theorem step_of_byte {s : State} {b : Byte} {now : Nat} {rest : List HostItem}
    (h : s.inbox = encode (.byte b now) :: rest) : step s = byteStep b now (s.present rest) := by
  unfold step
  rw [h]
  simp only [decode_encode_byte]
  rfl

/-- A run of `k + 1` steps whose first step goes on is a run of `k` steps from there. -/
theorem run_of_step {s t : State} {k : Nat} (h : step s = .next t) :
    Host.Core.run Sys2Proof.core (k + 1) s = Host.Core.run Sys2Proof.core k t := by
  have h1 : Sys2Proof.core.step s = .next t := h
  have h2 := Host.Core.run.eq_2 Sys2Proof.core s k
  rw [h1] at h2
  exact h2

end Sys2Proof.Machine
end

