-- ==== Sys2Proof/Laws/PerInstr.lean ====
section
/-! SUPPORT. EncodingMatchesRow: the word of every well-formed instruction lies in its row of the opcode table and in
no other row of the row's format. -/

namespace Sys2Proof.Laws

/-- The mnemonic of an instruction, as the opcode table spells it. -/
def mnemonicOf : Instr → String
  | .tick _ => "TICK"
  | .byte _ _ => "BYTE"
  | .encode _ _ _ _ => "ENCODE"
  | .reset => "RESET"
  | .discovery => "Discovery"
  | .allocateAddress _ _ => "AllocateAddress"
  | .informationRequest _ => "InformationRequest"
  | .registrationRequest _ _ _ _ _ => "RegistrationRequest"
  | .registrationConfirmation _ _ _ _ _ => "RegistrationConfirmation"
  | .informationResponse _ _ _ _ _ => "InformationResponse"

/-- The rows of an entry's format that cover its word. -/
def rowsOf : HostItem → List String
  | .command p => (commandRows.filter fun r => r.covers p.cmd.toNat).map OpcodeRow.mnemonic
  | .frame f => (kindRows.filter fun r => r.covers f.key.toNat).map OpcodeRow.mnemonic

/-- A command word with `op` = 01 lies in BYTE's row alone, whatever its argument. -/
theorem rows_of_byte_word (b : Byte) :
    (commandRows.filter fun r => r.covers (encodeCommandWord (.byte b)).toNat).map OpcodeRow.mnemonic = ["BYTE"] := by
  have h : ∀ b : BitVec 8, (commandRows.filter fun r =>
      r.covers (encodeCommandWord (.byte b)).toNat).map OpcodeRow.mnemonic = ["BYTE"] := by decide +kernel
  exact h b

/-- A command word with `op` = 10 lies in ENCODE's row alone, whatever its argument. -/
theorem rows_of_encode_word (n : Byte) :
    (commandRows.filter fun r => r.covers (encodeCommandWord (.encode n)).toNat).map OpcodeRow.mnemonic =
      ["ENCODE"] := by
  have h : ∀ n : BitVec 8, (commandRows.filter fun r =>
      r.covers (encodeCommandWord (.encode n)).toNat).map OpcodeRow.mnemonic = ["ENCODE"] := by decide +kernel
  exact h n

/-- The rows of a frame-kind key. -/
def rowsOfKey (key : BitVec 16) : List String := (kindRows.filter fun r => r.covers key.toNat).map OpcodeRow.mnemonic

/-- The rows of a command word. -/
def rowsOfWord (w : BitVec 10) : List String := (commandRows.filter fun r => r.covers w.toNat).map OpcodeRow.mnemonic

namespace EncodingMatchesRow

/-- The word of the instruction lies in its own row, and in no other row of the same format. -/
def Statement (i : Instr) : Prop := rowsOf (Sys2Proof.encode i) = [mnemonicOf i]

theorem tick (now : Nat) : Statement (.tick now) :=
  show rowsOfWord (encodeCommandWord .tick) = ["TICK"] by decide +kernel
theorem byte (b : Byte) (now : Nat) : Statement (.byte b now) := rows_of_byte_word b
theorem encode (dst : Half) (ctrl func : Byte) (payload : List Byte) : Statement (.encode dst ctrl func payload) :=
  rows_of_encode_word (lengthOctet payload)
theorem reset : Statement .reset :=
  show rowsOfWord (encodeCommandWord .reset) = ["RESET"] by decide +kernel
theorem discovery : Statement .discovery :=
  show rowsOfKey (kindKey 0x00 0x00) = ["Discovery"] by decide +kernel
theorem allocateAddress (serial : List Byte) (address : Byte) : Statement (.allocateAddress serial address) :=
  show rowsOfKey (kindKey 0x00 0x01) = ["AllocateAddress"] by decide +kernel
theorem informationRequest (target : Half) : Statement (.informationRequest target) :=
  show rowsOfKey (kindKey 0x01 0x02) = ["InformationRequest"] by decide +kernel
theorem registrationRequest (src dst : Half) (serial : List Byte) (t0 d : Nat) :
    Statement (.registrationRequest src dst serial t0 d) :=
  show rowsOfKey (kindKey 0x00 0x80) = ["RegistrationRequest"] by decide +kernel
theorem registrationConfirmation (src dst : Half) (payload : List Byte) (t0 d : Nat) :
    Statement (.registrationConfirmation src dst payload t0 d) :=
  show rowsOfKey (kindKey 0x00 0x81) = ["RegistrationConfirmation"] by decide +kernel
theorem informationResponse (src dst : Half) (payload : List Byte) (t0 d : Nat) :
    Statement (.informationResponse src dst payload t0 d) :=
  show rowsOfKey (kindKey 0x01 0x81) = ["InformationResponse"] by decide +kernel

end EncodingMatchesRow

end Sys2Proof.Laws
end

