-- ==== Sys2Proof/Tests/Slice0.lean ====
section
/-! SUPPORT. Tests whose expected results stand in 95_test_vectors.md (named V-… or W…) or in the encodings of
30_encoding.md, the smoke test of WellFormed, and for every statement with hypotheses a witness that meets them. -/

namespace Sys2Proof.Tests

open Sys2Proof Sys2Proof.Machine

/-! ### Small states -/

/-- The next state of an outcome. -/
def nextOf : Result → Option State
  | .next t => some t
  | .fault _ => none
  | .refused _ => none

/-- The event of an outcome. -/
def eventOf (r : Result) : Option Event := (nextOf r).map State.ev

/-- Does a step go on? -/
def goesOn (r : Result) : Bool := (nextOf r).isSome

/-- The parameters of the vectors: CLOCK_W = 32, BUF_CAP = 264. -/
def bigParams : Params := ⟨32, 264, 0x0000#16, by decide, by decide⟩

/-- The least parameters, with the MASTER_ID of V-EN-2. -/
def smallParams : Params := ⟨10, 9, 0x0102#16, by decide, by decide⟩

/-- In WFS. -/
def hunting (p : Params) (sp : Bool) : State where
  params := p
  st := .wfs
  sp := sp
  buf := []
  idx := 0
  rem := 0
  tl := 0
  ev := .noEvent
  tx := []
  txLen := none
  inbox := []
  draws := 0

/-- A buffer that holds these octets. -/
def listed (octets : List Byte) : Memory := (List.range octets.length).map fun k => (k, octets.getD k 0)

/-- In RH after these octets, the last accepted at `tl`. -/
def inHeader (p : Params) (octets : List Byte) (tl : Nat) : State :=
  { hunting p false with st := .rh, buf := listed octets, idx := BitVec.ofNat 9 octets.length, tl := tl }

/-- In RP after these octets, the last accepted at `tl`. -/
def inPayload (p : Params) (octets : List Byte) (tl : Nat) : State :=
  { hunting p false with
    st := .rp, buf := listed octets, idx := BitVec.ofNat 9 octets.length, tl := tl
    rem := BitVec.ofNat 9 (9 + (octets.getD 6 0).toNat - octets.length) }

/-- The serial identifier of the §8 frame. -/
def serial8 : List Byte := [0x53, 0x32, 0x32, 0x31, 0x31, 0x35, 0x31, 0x34, 0x31, 0x35]

/-- The raw octets of the §8 frame but for the last. -/
def raw8 : List Byte := [0x00, 0x00, 0x00, 0x00, 0x00, 0x80, 0x0A] ++ serial8 ++ [0x03]

/-- The fields of the §8 frame (W1). -/
def fields8 : FrameFields :=
  { src := 0, dst := 0, ctrl := 0x00, func := 0x80, len := 10, payload := serial8, cs := 0x03A2 }

/-! ### WellFormed: an ill-formed term for each check -/

theorem test_wf_payload : Instr.wf (.encode 0 0 0 (List.replicate 256 0)) = false := by decide +kernel
theorem test_wf_serial_out : Instr.wf (.allocateAddress (List.replicate 9 0) 0) = false := by decide
theorem test_wf_serial_in : Instr.wf (.registrationRequest 0 0 (List.replicate 11 0) 0 0) = false := by decide
theorem test_wf_confirmation : Instr.wf (.registrationConfirmation 0 0 (List.replicate 256 0) 0 0) = false := by
  decide +kernel
theorem test_wf_telemetry_short : Instr.wf (.informationResponse 0 0 (List.replicate 43 0) 0 0) = false := by decide
theorem test_wf_telemetry_long : Instr.wf (.informationResponse 0 0 (List.replicate 256 0) 0 0) = false := by
  decide +kernel

/-! ### Decoding: words written out from R41, R42 and R44 -/

/-- V-CM-1, V-CM-5. -/
theorem test_decode_tick_reset :
    decode (.command { cmd := 0b0000000000#10, now := 7 }) = .ok (.tick 7) ∧
    decode (.command { cmd := 0b1100000000#10 }) = .ok .reset := by decide

/-- V-CM-3, and the ends of the quarter. -/
theorem test_decode_byte :
    decode (.command { cmd := 0b0101010101#10, now := 7 }) = .ok (.byte 0x55 7) ∧
    decode (.command { cmd := 0b0100000000#10, now := 7 }) = .ok (.byte 0x00 7) ∧
    decode (.command { cmd := 0b0111111111#10, now := 7 }) = .ok (.byte 0xFF 7) := by decide

/-- V-CM-4: ten octets of the port are read, an eleventh is not. -/
theorem test_decode_encode :
    decode (.command { cmd := 0b1000001010#10, encDst := 5, encCtrl := 1, encFunc := 2, encPayload := serial8 ++ [9] }) =
      .ok (.encode 5 1 2 serial8) ∧
    decode (.command { cmd := 0b1000001010#10, encPayload := [9] }) = .invalid (.payloadPortShort 10 1) := by decide

/-- V-CM-2, V-CM-6, V-CM-7: reserved words. -/
theorem test_decode_reserved :
    decode (.command { cmd := 0b0000000001#10 }) = .invalid (.reservedCommand 0x001) ∧
    decode (.command { cmd := 0b1111111111#10 }) = .invalid (.reservedCommand 0x3FF) ∧
    decode (.command { cmd := 0b0011111111#10 }) = .invalid (.reservedCommand 0x0FF) := by decide

/-- R41: the outbound keys, and a field that the row excludes. -/
theorem test_decode_outbound_kinds :
    decode (.frame { key := 0b0000000000000000#16 }) = .ok .discovery ∧
    decode (.frame { key := 0b0000000000000001#16, payload := serial8 ++ [1] }) = .ok (.allocateAddress serial8 1) ∧
    decode (.frame { key := 0b0000000100000010#16, dst := 5 }) = .ok (.informationRequest 5) ∧
    decode (.frame { key := 0b0000000000000000#16, dst := 1 }) = .invalid (.frameKindFields 0) := by decide

/-- R41: the inbound keys, and a key of no row. -/
theorem test_decode_inbound_kinds :
    decode (.frame { key := 0b0000000010000000#16, src := 3, payload := serial8, t0 := 1, d := 2 }) =
      .ok (.registrationRequest 3 0 serial8 1 2) ∧
    decode (.frame { key := 0b0000000010000001#16, dst := 4, t0 := 1 }) = .ok (.registrationConfirmation 0 4 [] 1 0) ∧
    decode (.frame { key := 0b0000000110000001#16, payload := List.replicate 44 7 }) =
      .ok (.informationResponse 0 0 (List.replicate 44 7) 0 0) ∧
    decode (.frame { key := 0b0000000110000000#16 }) = .invalid (.notAFrameKind 0x0180) := by decide

/-- No word lies in two rows of one format of the opcode table. -/
theorem test_rows_do_not_overlap :
    commandRows.Pairwise (fun r q => (r.pattern ^^^ q.pattern) &&& (r.mask &&& q.mask) ≠ 0) ∧
    kindRows.Pairwise (fun r q => (r.pattern ^^^ q.pattern) &&& (r.mask &&& q.mask) ≠ 0) := by decide +kernel

/-- P1's encoding: the command words of the first and the last octets of the §8 frame. -/
theorem test_bytes_pseudo :
    AsmLine.assemble (.bytes [0x55, 0xAA, 0x00] 100 none) =
      [.command { cmd := 0x155, now := 100 }, .command { cmd := 0x1AA, now := 101 },
        .command { cmd := 0x100, now := 102 }] ∧
    AsmLine.assemble (.bytes [0x12, 0x55] 65530 (some 10)) =
      [.command { cmd := 0x112, now := 65530 }, .command { cmd := 0x155, now := 65540 }] := by decide

/-! ### The codec -/

/-- V-CS-1, V-CS-2, V-CS-7. -/
theorem test_checksums :
    sum16 [0x55, 0xAA] = 0x00FF#16 ∧ checksumRaw (raw8 ++ [0xA2]) = 0x03A2#16 ∧
    sum16 [0x55, 0xAA, 0, 0, 0, 0, 0, 0, 2, 1, 2] = 0x0104#16 := by decide

/-- V-CS-4, V-CS-5, V-CS-6: truncation. -/
theorem test_checksum_truncates :
    sum16 (summedOctets 0xFFFF 0xFFFF 0xFF 0xFF (List.replicate 255 0xFF)) = 0x05F9#16 ∧
    sum16 (summedOctets 0xFFFF 0xFFFF 0xFF 0xFF (List.replicate 249 0xFF)) = 0xFFF9#16 ∧
    sum16 (summedOctets 0xFFFF 0xFFFF 0xFF 0xFF (List.replicate 250 0xFF)) = 0x00F9#16 := by decide +kernel

/-- V-EN-2 and V-EN-7: the frame, and a reception that goes on. -/
theorem test_encode :
    (nextOf (exec (.encode 0 0 0 []) (inHeader smallParams [0, 0, 0] 1004))).map
      (fun t => (t.tx, t.txLen, t.st, t.idx, t.tl)) =
    some ([0x55, 0xAA, 0x01, 0x02, 0x00, 0x00, 0x00, 0x00, 0x00, 0x01, 0x02], some 11#9, .rh, 3#9, 1004) := by
  decide

/-- V-EN-6: the longest frame, with MASTER_ID FFFF. -/
theorem test_encode_longest :
    (nextOf (exec (.encode 0xFFFF 0xFF 0xFF (List.replicate 255 0xFF))
      (hunting ⟨32, 264, 0xFFFF, by decide, by decide⟩ false))).map
      (fun t => (t.tx.drop 264, t.txLen)) = some ([0x05, 0xF9], some 266#9) := by
  decide +kernel

/-- V-EN-1, V-EN-5. -/
theorem test_discovery_and_information_request :
    (nextOf (exec .discovery (hunting bigParams true))).map State.tx =
      some [0x55, 0xAA, 0x00, 0x00, 0x00, 0x00, 0x00, 0x00, 0x00, 0x00, 0xFF] ∧
    (nextOf (exec (.informationRequest 5) (hunting smallParams true))).map State.tx =
      some [0x55, 0xAA, 0x01, 0x02, 0x00, 0x05, 0x01, 0x02, 0x00, 0x01, 0x0A] := by decide

/-- V-EN-3. -/
theorem test_allocate_address :
    (nextOf (exec (.allocateAddress serial8 1) (hunting bigParams true))).map State.tx =
      some ([0x55, 0xAA, 0x00, 0x00, 0x00, 0x00, 0x00, 0x01, 0x0B] ++ serial8 ++ [0x01, 0x03, 0x25]) := by decide

/-- V-DE-1 to V-DE-5. -/
theorem test_decode_raw :
    decodeRaw (raw8 ++ [0xA2]) = some (.ok fields8) ∧
    decodeRaw (raw8 ++ [0xA3]) = some (.mismatch 0x03A3 0x03A2) ∧
    decodeRaw (raw8.take 17 ++ [0x04, 0xA2]) = some (.mismatch 0x04A2 0x03A2) ∧
    decodeRaw [0, 0, 0, 0, 0, 0, 0, 0, 0xFF] =
      some (.ok { src := 0, dst := 0, ctrl := 0, func := 0, len := 0, payload := [], cs := 0x00FF }) ∧
    decodeRaw [0, 0, 0, 0, 0, 0, 0, 0] = none := by decide

/-! ### The assembler -/

/-- V-SY-1 to V-SY-5 step by step, V-LC-1 and V-LC-5, V-ST-3: BYTE in WFS and in RH, in time and late. -/
theorem test_byte_hunts_and_accumulates :
    (nextOf (exec (.byte 0xAA 1) (hunting bigParams true))).map (fun t => (t.st, t.sp, t.idx, t.tl)) =
      some (.rh, false, 0#9, 1) ∧
    (nextOf (exec (.byte 0x55 1) (hunting bigParams true))).map (fun t => (t.st, t.sp)) = some (.wfs, true) ∧
    (nextOf (exec (.byte 0x12 1) (hunting bigParams true))).map (fun t => (t.st, t.sp)) = some (.wfs, false) ∧
    (nextOf (exec (.byte 0xAA 1) (hunting bigParams false))).map (fun t => (t.st, t.sp)) = some (.wfs, false) ∧
    (nextOf (exec (.byte 0xFF 8) (inHeader bigParams [0, 0, 0, 0, 0, 0x80] 7))).map
      (fun t => (t.st, t.idx, t.rem, t.ev)) = some (.rp, 7#9, 257#9, .noEvent) ∧
    (nextOf (exec (.byte 0x01 8) (inHeader smallParams [0, 0, 0, 0, 0, 0x80] 7))).map
      (fun t => (t.st, t.sp, t.ev)) = some (.wfs, false, .bufferOverflowRisk 1) ∧
    (nextOf (exec (.byte 0x55 1505) (inHeader bigParams [0, 0, 0] 1004))).map
      (fun t => (t.st, t.sp, t.ev)) = some (.wfs, true, .frameTimeout .rh 3#9) := by decide +kernel

/-- W1's last octet, V-RP-3, V-RP-1's second countdown, V-ST-9: BYTE in RP. -/
theorem test_byte_completes :
    (nextOf (exec (.byte 0xA2 120) (inPayload bigParams raw8 119))).map
      (fun t => (t.st, t.idx, t.rem, t.tl, t.ev)) = some (.wfs, 19#9, 0#9, 120, .frame fields8) ∧
    eventOf (exec (.byte 0xA3 120) (inPayload bigParams raw8 119)) = some (.checksumMismatch 0x03A3 0x03A2) ∧
    (nextOf (exec (.byte 0x53 109) (inPayload bigParams (raw8.take 7) 108))).map
      (fun t => (t.st, t.idx, t.rem, t.tl, t.ev)) = some (.rp, 8#9, 11#9, 109, .noEvent) ∧
    (nextOf (exec (.byte 0xA2 620) (inPayload bigParams raw8 119))).map
      (fun t => (t.st, t.sp, t.ev)) = some (.wfs, false, .frameTimeout .rp 18#9) := by
  refine ⟨by decide +kernel, by decide +kernel, by decide +kernel, by decide +kernel⟩

/-- V-ST-1, V-ST-2, V-ST-8: the window is inclusive. -/
theorem test_tick_window :
    eventOf (exec (.tick 1504) (inHeader bigParams [0, 0, 0] 1004)) = some .noEvent ∧
    eventOf (exec (.tick 1505) (inHeader bigParams [0, 0, 0] 1004)) = some (.frameTimeout .rh 3#9) ∧
    eventOf (exec (.tick 609) (inPayload bigParams (raw8.take 7) 108)) = some (.frameTimeout .rp 7#9) := by
  decide +kernel

/-- V-ST-4, V-ST-5, V-ST-6, V-ST-10: the clock wraps, and WFS has no timer. -/
theorem test_tick_wraps :
    eventOf (exec (.tick 0x000000E3) (inHeader bigParams [] 0xFFFFFFF0)) = some .noEvent ∧
    eventOf (exec (.tick 0x00000204) (inHeader bigParams [] 0xFFFFFFF0)) = some (.frameTimeout .rh 0#9) ∧
    eventOf (exec (.tick 999) (inHeader bigParams [] 1000)) = some (.frameTimeout .rh 0#9) ∧
    (nextOf (exec (.tick 100000) (hunting bigParams true))).map (fun t => (t.st, t.sp, t.ev)) =
      some (.wfs, true, .noEvent) := by decide +kernel

/-- V-RS-1, V-RS-2. -/
theorem test_reset :
    (nextOf (exec .reset (inPayload bigParams (raw8.take 12) 5))).map (fun t => (t.st, t.sp, t.ev)) =
      some (.wfs, false, .noEvent) ∧
    (nextOf (exec .reset (hunting bigParams true))).map (fun t => (t.st, t.sp, t.ev)) =
      some (.wfs, false, .noEvent) := by decide

/-- W1's frame as a registration request: the first octet now, P1's other 20 words next. -/
theorem test_registration_request :
    (nextOf (exec (.registrationRequest 0 0 serial8 100 1) (hunting bigParams false))).map
      (fun t => (t.st, t.sp, t.inbox)) =
    some (.wfs, true, AsmLine.assemble (.bytes ([0xAA] ++ raw8 ++ [0xA2]) 101 (some 1))) := by decide +kernel

/-- V-SY-8's frame as a registration confirmation. -/
theorem test_registration_confirmation :
    (nextOf (exec (.registrationConfirmation 0 0 [0xD4] 0 1) (hunting bigParams false))).map State.inbox =
    some (AsmLine.assemble (.bytes [0xAA, 0x00, 0x00, 0x00, 0x00, 0x00, 0x81, 0x01, 0xD4, 0x02, 0x55] 1 (some 1))) := by
  decide

/-- The header of an information response: control 0x01, function 0x81, length 44 (R41). -/
theorem test_information_response :
    (nextOf (exec (.informationResponse 0x0102 0x0304 (List.replicate 44 0) 0 1) (hunting bigParams false))).map
      (fun t => t.inbox.take 8) =
    some (AsmLine.assemble (.bytes [0xAA, 0x01, 0x02, 0x03, 0x04, 0x01, 0x81, 0x2C] 1 (some 1))) := by decide +kernel

/-! ### Fetching -/

/-- A bare table word is decoded, and run by the very next step. -/
theorem test_fetch_word :
    decodeTableWord 16 0x0155 = some (.byte 0x55 0) ∧ decodeTableWord 16 0x0102 = some (.informationRequest 0) ∧
    decodeTableWord 10 0x102 = some (.byte 0x02 0) ∧ decodeTableWord 16 0x0302 = none ∧
    (nextOf (step ((hunting bigParams false).withFetchWord 16 0x0155))).map State.sp = some true := by decide

/-! ### Witnesses of the statements' hypotheses -/

/-- A state to which a reserved word is presented. -/
theorem witness_CommandWordsDecodeAsTabled :
    (0x01#8 : Byte) ≠ 0#8 ∧ (0xFF#8 : Byte) ≠ 0#8 ∧ decodeCommandWord 0x001#10 = none ∧
    decodeCommandWord 0x3FF#10 = none ∧
    State.inbox { hunting bigParams false with inbox := [.command { cmd := 0x001 }] } =
      .command { cmd := 0x001 } :: [] := by decide

theorem witness_DecodeOfEncodeIsIdentity :
    Instr.wf (.tick 0) = true ∧ Instr.wf (.byte 0xFF 9) = true ∧ Instr.wf (.encode 1 2 3 []) = true ∧
    Instr.wf (.encode 1 2 3 (List.replicate 255 0)) = true ∧ Instr.wf .reset = true ∧ Instr.wf .discovery = true ∧
    Instr.wf (.allocateAddress serial8 1) = true ∧ Instr.wf (.informationRequest 5) = true ∧
    Instr.wf (.registrationRequest 1 2 serial8 3 4) = true ∧
    Instr.wf (.registrationConfirmation 1 2 (List.replicate 255 0) 3 4) = true ∧
    Instr.wf (.informationResponse 1 2 (List.replicate 44 0) 3 4) = true ∧
    Instr.wf (.informationResponse 1 2 (List.replicate 255 0) 3 4) = true := by decide +kernel

theorem witness_EncodeOfDecodedCommandWord :
    decodeCommandWord 0x1AA#10 = some (.byte 0xAA) ∧ decodeCommandWord 0x300#10 = some .reset := by decide

theorem witness_DecodedInstructionsAreWellFormed :
    decode (.frame { key := 0x0181, payload := List.replicate 44 0 }) =
      .ok (.informationResponse 0 0 (List.replicate 44 0) 0 0) := by decide

theorem witness_BytesExpandToOneBytePerOctet :
    0 < [0x55#8, 0xAA#8].length ∧ 1 < [0x55#8, 0xAA#8].length ∧
    ([] : List Byte).length ≤ 255 ∧ (List.replicate 255 (0 : Byte)).length ≤ 255 := by decide +kernel

theorem witness_StepRunsDecodedInstruction :
    (∃ s : State, s.inbox = .command { cmd := 0x155, now := 4 } :: [] ∧
      decode (.command { cmd := 0x155, now := 4 }) = .ok (.byte 0x55 4)) ∧
    (∃ s : State, s.inbox = .command { cmd := 0x0FF } :: [] ∧
      decode (.command { cmd := 0x0FF }) = .invalid (.reservedCommand 0x0FF)) ∧
    (∃ s : State, s.inbox = []) :=
  ⟨⟨{ hunting bigParams false with inbox := [.command { cmd := 0x155, now := 4 }] }, by decide⟩,
   ⟨{ hunting bigParams false with inbox := [.command { cmd := 0x0FF }] }, by decide⟩,
   ⟨hunting bigParams false, by decide⟩⟩

theorem witness_FetchWordRunsTheTableWord :
    decodeTableWord 16 0x0081 = some (.registrationConfirmation 0 0 [] 0 0) ∧
    decodeTableWord 16 0x0000 = some (.tick 0) := by decide

theorem witness_ParametersNeverChange :
    step { hunting bigParams true with inbox := [.command { cmd := 0x300 }] } = .next (hunting bigParams true).goWFS.forget :=
  rfl

theorem witness_IllFormedTermsAreRefused :
    Instr.wf (.encode 0 0 0 (List.replicate 256 0)) = false ∧ Instr.wf (.allocateAddress [] 0) = false ∧
    Instr.wf (.registrationRequest 0 0 (List.replicate 11 0) 0 0) = false ∧
    Instr.wf (.registrationConfirmation 0 0 (List.replicate 256 0) 0 0) = false ∧
    Instr.wf (.informationResponse 0 0 (List.replicate 43 0) 0 0) = false := by decide +kernel

/-- The payload lengths at both ends, for the statements about a frame with `payload.length ≤ 255`: FieldsAreBigEndian,
WireFrameLayout, ChecksumIsTruncatingSumOfFrame, EncodeTransmitsTheFrame. -/
theorem witness_payload_lengths :
    ([] : List Byte).length ≤ 255 ∧ (List.replicate 255 (0 : Byte)).length ≤ 255 := by decide +kernel

/-- V-DE-1 (Ok) and V-DE-2 (Mismatch); the ENCODE clause's premise is met by witness_payload_lengths. -/
theorem witness_FieldsAreBigEndian :
    decodeRaw (raw8 ++ [0xA2]) = some (.ok fields8) ∧
    decodeRaw (raw8 ++ [0xA3]) = some (.mismatch 0x03A3 0x03A2) := by decide

theorem witness_ChecksumIsTruncatingSumOfFrame :
    let w : List Byte := [0x55, 0xAA] ++ raw8 ++ [0xA2]
    let e := wireFrame 0xFFFF 0xFFFF 0xFF 0xFF (List.replicate 255 0xFF)
    (10 = (w.getD 8 0).toNat ∧ w.length = 11 + 10 ∧ w.getD 0 0 = 0x55#8 ∧ w.getD 1 0 = 0xAA#8) ∧
    (255 = (e.getD 8 0).toNat ∧ e.length = 11 + 255 ∧ e.getD 0 0 = 0x55#8 ∧ e.getD 1 0 = 0xAA#8) := by decide +kernel

theorem witness_ChecksumIgnoresOctetOrder : [1#8, 2#8].Perm [2#8, 1#8] := by decide

theorem witness_ChecksumTruncatesOnlyAbove249 :
    ((List.replicate 249 (0 : Byte)).length ≤ 249 ∧ (List.replicate 255 (0 : Byte)).length ≤ 255) ∧
    (250 ≤ 250 ∧ 250 ≤ 255) ∧ (250 ≤ 255 ∧ 255 ≤ 255) := by decide +kernel

/-- V-DE-1 (equal checksums), V-DE-2 (unequal), V-DE-4 (`L = 0`). -/
theorem witness_DecodeValidatesRawFrame :
    (let raw := raw8 ++ [0xA2#8]
     10 = (raw.getD 6 0).toNat ∧ raw.length = 9 + 10 ∧
     be16 (raw.getD 17 0) (raw.getD 18 0) = sum16 ([0x55#8, 0xAA#8] ++ raw.take 17)) ∧
    (let raw := raw8 ++ [0xA3#8]
     10 = (raw.getD 6 0).toNat ∧ raw.length = 9 + 10 ∧
     be16 (raw.getD 17 0) (raw.getD 18 0) ≠ sum16 ([0x55#8, 0xAA#8] ++ raw.take 17)) ∧
    (let raw := [0#8, 0, 0, 0, 0, 0, 0, 0, 0xFF]
     0 = (raw.getD 6 0).toNat ∧ raw.length = 9 + 0) := by decide

/-- An ENCODE that goes on, in the middle of a frame; the statement's second instruction is free. -/
theorem witness_EncodeLeavesReceptionAlone :
    goesOn (exec (.encode 5 1 2 [7, 8]) (inHeader bigParams [0, 0, 0] 1004)) = true := by decide

theorem witness_DecodeOfEncodedFrame :
    goesOn (exec (.encode 5 1 2 []) (hunting bigParams false)) = true ∧
    goesOn (exec (.encode 5 1 2 (List.replicate 255 0xFF)) (hunting bigParams false)) = true := by decide +kernel

theorem witness_OutboundKindsTransmitTheirFrames : serial8.length = 10 := by decide

theorem witness_FramesLeaveInStepOrder :
    ∀ c ∈ [((0 : Half), (0 : Byte), (0 : Byte), ([] : List Byte)), (5, 1, 2, [7, 8])], c.2.2.2.length ≤ 255 := by decide

/-- In WFS; at the end of the window; one past it. -/
theorem witness_TickRunsTheStallCheck :
    (hunting bigParams true).st = .wfs ∧
    elapsed 32 1504 (inHeader bigParams [0, 0, 0] 1004).tl ≤ 500 ∧
    (inHeader bigParams [0, 0, 0] 1004).st ≠ .wfs ∧ 500 < elapsed 32 1505 (inHeader bigParams [0, 0, 0] 1004).tl := by
  decide +kernel

/-- ByteHuntsForSync and SyncWindowSlides: in WFS with a partial match and AA; without one; with one and another octet. -/
theorem witness_ByteHuntsForSync :
    ((hunting bigParams true).st = .wfs ∧ (hunting bigParams true).sp = true ∧ (0xAA#8 : Byte) = 0xAA#8) ∧
    ((hunting bigParams false).st = .wfs ∧ ¬((hunting bigParams false).sp = true ∧ (0xAA#8 : Byte) = 0xAA#8)) ∧
    ((hunting bigParams true).st = .wfs ∧ ¬((hunting bigParams true).sp = true ∧ (0x55#8 : Byte) = 0xAA#8)) := by decide

/-- The first, the sixth and the seventh header octet, in the window; and a stall. -/
theorem witness_ByteAccumulatesHeader :
    (let s := inHeader smallParams [] 7
     s.st = .rh ∧ s.idx.toNat ≤ 6 ∧ s.idx.toNat < 6 ∧ elapsed s.params.clockW 507 s.tl ≤ stallMs) ∧
    (let s := inHeader smallParams [0, 0, 0, 0, 0] 7
     s.st = .rh ∧ s.idx.toNat ≤ 6 ∧ s.idx.toNat < 6 ∧ elapsed s.params.clockW 507 s.tl ≤ stallMs) ∧
    (let s := inHeader smallParams [0, 0, 0, 0, 0, 0] 7
     s.st = .rh ∧ s.idx.toNat ≤ 6 ∧ s.idx.toNat = 6 ∧ elapsed s.params.clockW 7 s.tl ≤ stallMs) ∧
    (let s := inHeader smallParams [0, 0, 0, 0, 0, 0] 7
     s.st = .rh ∧ s.idx.toNat ≤ 6 ∧ stallMs < elapsed s.params.clockW 508 s.tl) := by decide +kernel

/-- V-LC-4 (fits) and V-LC-5 (does not). -/
theorem witness_AcceptedLengthsArePayloadMax :
    let s := inHeader smallParams [0, 0, 0, 0, 0, 0] 7
    s.st = .rh ∧ s.idx = 6#9 ∧ elapsed s.params.clockW 8 s.tl ≤ 500 ∧
    9 + (0#8 : Byte).toNat ≤ s.params.bufCap ∧ s.params.bufCap < 9 + (1#8 : Byte).toNat := by decide +kernel

/-- With two octets to come and with one. -/
theorem witness_ByteCountsDownPayload :
    (let s := inPayload bigParams (raw8.take 17) 7
     s.st = .rp ∧ elapsed s.params.clockW 507 s.tl ≤ stallMs ∧ s.idx.toNat < s.params.bufCap ∧ 1 ≤ s.rem.toNat ∧
     s.rem ≠ 1#9) ∧
    (let s := inPayload bigParams raw8 7
     s.st = .rp ∧ elapsed s.params.clockW 507 s.tl ≤ stallMs ∧ s.idx.toNat < s.params.bufCap ∧ 1 ≤ s.rem.toNat ∧
     s.rem = 1#9) := by decide +kernel

/-- The state before W1's last octet. The octet A2 makes the checksums equal, A3 does not. -/
theorem witness_LastOctetCompletesTheFrame :
    (let s := inPayload bigParams raw8 7
     s.Inv ∧ s.st = .rp ∧ s.rem = 1#9 ∧ elapsed s.params.clockW 507 s.tl ≤ 500) ∧
    be16 0x03 0xA2 = sum16 ([0x55#8, 0xAA#8] ++ raw8.take 17) ∧
    be16 0x03 0xA3 ≠ sum16 ([0x55#8, 0xAA#8] ++ raw8.take 17) := by decide +kernel

/-- V-ST-3 and V-ST-9. -/
theorem witness_LateOctetAbortsThenHunts :
    (let s := inHeader bigParams [0, 0, 0] 1004
     s.st ≠ .wfs ∧ 500 < elapsed s.params.clockW 1505 s.tl) ∧
    (let s := inPayload bigParams raw8 119
     s.st ≠ .wfs ∧ 500 < elapsed s.params.clockW 620 s.tl) := by decide +kernel

/-- An octet in WFS, one that is late, one accepted, and the first octet of an inbound kind. -/
theorem witness_ByteStoresAtIndexOnly :
    (octetTaken (.byte 0x12 1505) = some 0x12 ∧ clockUsed (.byte 0x12 1505) = some 1505 ∧
      goesOn (exec (.byte 0x12 1505) (hunting bigParams true)) = true ∧
      goesOn (exec (.byte 0x12 1505) (inHeader bigParams [0, 0, 0] 1004)) = true) ∧
    (goesOn (exec (.byte 0x12 1504) (inHeader bigParams [0, 0, 0] 1004)) = true ∧
      (inHeader bigParams [0, 0, 0] 1004).st = .rh ∧ (inHeader bigParams [0, 0, 0] 1004).idx ≠ 6#9 ∧
      elapsed 32 1504 1004 ≤ 500) ∧
    (octetTaken (.registrationRequest 0 0 serial8 1 1) = some 0x55 ∧
      clockUsed (.registrationRequest 0 0 serial8 1 1) = some 1 ∧
      goesOn (exec (.registrationRequest 0 0 serial8 1 1) (hunting bigParams false)) = true) := by decide +kernel

theorem witness_TickAndEncodeStoreNothing :
    octetTaken (.tick 1505) = none ∧ Instr.tick 1505 ≠ .reset ∧
    goesOn (exec (.tick 1505) (inHeader bigParams [0, 0, 0] 1004)) = true ∧
    octetTaken (.allocateAddress serial8 1) = none ∧
    goesOn (exec (.allocateAddress serial8 1) (inHeader bigParams [0, 0, 0] 1004)) = true := by decide +kernel

/-- The payload lengths at their ends, in WFS. -/
theorem witness_InboundKindsPresentTheirOctets :
    (hunting bigParams true).st = .wfs ∧ serial8.length = 10 ∧ ([] : List Byte).length ≤ 255 ∧
    44 ≤ (List.replicate 44 (0 : Byte)).length ∧ (List.replicate 255 (0 : Byte)).length ≤ 255 := by decide +kernel

/-- W1's frame; the shortest confirmation in the smallest buffer; the longest response in the largest. -/
theorem witness_InboundKindIsDelivered :
    (Instr.wf (.registrationRequest 0 0 serial8 100 500) = true ∧ (hunting bigParams true).st = .wfs ∧
      9 + serial8.length ≤ (hunting bigParams true).params.bufCap ∧ (500 : Nat) ≤ 500) ∧
    (Instr.wf (.registrationConfirmation 3 0 [] 100 0) = true ∧ (hunting smallParams false).st = .wfs ∧
      9 + ([] : List Byte).length ≤ (hunting smallParams false).params.bufCap) ∧
    (Instr.wf (.informationResponse 3 0 (List.replicate 255 0) 1 1) = true ∧
      9 + (List.replicate 255 (0 : Byte)).length ≤ (hunting bigParams false).params.bufCap) := by decide +kernel

/-- The steps of one empty frame, with a TICK and an ENCODE between its octets. -/
def emptyFrameSteps : List Instr :=
  [.byte 0x55 0, .tick 900, .byte 0xAA 1000, .byte 0 1500, .encode 5 1 2 [7], .byte 0 2000, .tick 2500, .byte 0 2500,
    .byte 0 2501, .byte 0 2502, .byte 0 2503, .byte 0 2504, .byte 0 2505]

theorem witness_PresentedFrameIsReceivedOnce :
    (hunting bigParams true).st = .wfs ∧ ([] : List Byte).length ≤ 255 ∧
    9 + ([] : List Byte).length ≤ (hunting bigParams true).params.bufCap ∧
    octetsOf (emptyFrameSteps ++ [.byte 0xFF 3005]) = wireFrame 0 0 0 0 [] ∧
    Timely (hunting bigParams true).params.clockW 0 0 (emptyFrameSteps ++ [.byte 0xFF 3005]) := by
  refine ⟨by decide, by decide, by decide, by decide, ?_⟩
  simp only [emptyFrameSteps, List.cons_append, List.nil_append, Timely, and_true]
  decide +kernel

/-- The four events. -/
theorem witness_events :
    eventOf (exec (.tick 1505) (inHeader bigParams [0, 0, 0] 1004)) = some (.frameTimeout .rh 3#9) ∧
    eventOf (exec (.byte 0x01 8) (inHeader smallParams [0, 0, 0, 0, 0, 0x80] 7)) = some (.bufferOverflowRisk 1) ∧
    ((inPayload bigParams raw8 119).Inv ∧
      eventOf (exec (.byte 0xA3 120) (inPayload bigParams raw8 119)) = some (.checksumMismatch 0x03A3 0x03A2)) ∧
    eventOf (exec (.byte 0xA2 120) (inPayload bigParams raw8 119)) = some (.frame fields8) := by decide +kernel

/-- TimeoutExactlyWhenStalled: a step with the event, by TICK and by BYTE. -/
theorem witness_TimeoutExactlyWhenStalled :
    eventOf (exec (.tick 1505) (inHeader bigParams [0, 0, 0] 1004)) = some (.frameTimeout .rh 3#9) ∧
    octetTaken (.tick 1505) = none ∧
    eventOf (exec (.byte 0x55 1505) (inHeader bigParams [0, 0, 0] 1004)) = some (.frameTimeout .rh 3#9) ∧
    octetTaken (.byte 0x55 1505) = some 0x55 := by decide +kernel

theorem witness_HeaderStartsOnlyOnSync :
    (nextOf (exec (.byte 0xAA 1) (hunting bigParams true))).map State.st = some .rh ∧
    (hunting bigParams true).st ≠ .rh := by decide

/-- V-ST-3: a late 55 starts a partial match. -/
theorem witness_FrameEndLeavesNoPartialSync :
    (inHeader bigParams [0, 0, 0] 1004).st ≠ .wfs ∧
    (nextOf (exec (.byte 0x55 1505) (inHeader bigParams [0, 0, 0] 1004))).map (fun t => (t.st, t.sp)) =
      some (.wfs, true) := by decide +kernel

/-- A sync AA, an accepted octet, an octet in WFS, a TICK. -/
theorem witness_OnlyProgressMovesTheTimeStamp :
    goesOn (exec (.byte 0xAA 1) (hunting bigParams true)) = true ∧
    (goesOn (exec (.byte 0x00 1504) (inHeader bigParams [0, 0, 0] 1004)) = true ∧ elapsed 32 1504 1004 ≤ 500) ∧
    (goesOn (exec (.byte 0x12 1) (hunting bigParams true)) = true ∧ ¬((0x12#8 : Byte) = 0xAA#8)) ∧
    (goesOn (exec (.tick 1) (hunting bigParams true)) = true ∧ octetTaken (.tick 1) = none ∧
      Instr.tick 1 ≠ .reset) := by decide +kernel

/-- V-ST-6 (seen as a stall), and a 10-bit clock that is 524 and 523 behind (seen as 500 and 501 ahead). -/
theorem witness_BackwardsClockIsSeenAsAhead :
    (let s := inHeader bigParams [] 1000
     s.ClockOk ∧ s.st ≠ .wfs ∧ 1 < 2 ^ s.params.clockW ∧ (999 + 1) % 2 ^ s.params.clockW = s.tl ∧
     500 < 2 ^ s.params.clockW - 1) ∧
    (let s := inHeader smallParams [] 600
     s.ClockOk ∧ s.st ≠ .wfs ∧ 524 < 2 ^ s.params.clockW ∧ (76 + 524) % 2 ^ s.params.clockW = s.tl ∧
     2 ^ s.params.clockW - 524 ≤ 500) ∧
    (let s := inHeader smallParams [] 600
     523 < 2 ^ s.params.clockW ∧ (77 + 523) % 2 ^ s.params.clockW = s.tl ∧ 500 < 2 ^ s.params.clockW - 523) := by
  decide +kernel

/-- The last progress at 1000, a step at the end of the window, the next as late as a 10-bit clock allows. -/
theorem witness_StallIsSeenByASteppingHost :
    let s := inHeader smallParams [] 1000
    s.st ≠ .wfs ∧ s.tl = 1000 % 2 ^ s.params.clockW ∧ (1000 : Nat) ≤ 1500 ∧ (1500 : Nat) ≤ 1000 + 500 ∧
    1000 + 500 < 2023 ∧ 2023 ≤ 1500 + (2 ^ s.params.clockW - 501) := by decide +kernel

theorem witness_ResetStatesSatisfyTheInvariant : (inPayload bigParams raw8 7).goWFS.IsReset := by decide

/-- States with the invariant in WFS, RH and RP, and steps that go on from them. -/
theorem witness_EveryStepKeepsTheInvariant :
    ((hunting bigParams true).Inv ∧ (inHeader bigParams [0, 0, 0, 0, 0, 0] 7).Inv ∧ (inPayload bigParams raw8 7).Inv) ∧
    goesOn (step { inHeader bigParams [0, 0, 0, 0, 0, 0] 7 with inbox := [.command { cmd := 0x1FF, now := 8 }] }) = true ∧
    goesOn (step { inPayload bigParams raw8 7 with inbox := [.command { cmd := 0x1A2, now := 8 }] }) = true := by
  decide +kernel

theorem witness_EveryStepKeepsBufferForm :
    (inPayload bigParams raw8 7).BufOk ∧ (inPayload bigParams raw8 7).ClockOk ∧
    goesOn (step { inPayload bigParams raw8 7 with inbox := [.command { cmd := 0x1A2, now := 8 }] }) = true := by
  decide +kernel

/-- EveryInstructionCompletes; the well-formed terms are those of witness_DecodeOfEncodeIsIdentity. -/
theorem witness_EveryInstructionCompletes :
    (inPayload bigParams raw8 7).Inv ∧ Instr.wf (.byte 0xA2 8) = true ∧
    goesOn (exec (.byte 0xA2 8) (inPayload bigParams raw8 7)) = true := by decide +kernel

/-- The successor of an idle step is reachable. -/
theorem witness_ReachableBlockNeverStops_idle : Reachable (hunting bigParams false).quiet :=
  .step (s := hunting bigParams false) (.reset ⟨rfl, rfl⟩) rfl

/-- A state in RH is reachable. -/
theorem witness_ReachableBlockNeverStops : Reachable ((hunting bigParams true).enterRH 1) :=
  .exec (s := hunting bigParams true) (.byte 0xAA 1) (.exec (s := hunting bigParams false) (.byte 0x55 0)
    (.reset ⟨rfl, rfl⟩) rfl) rfl

/-- Two states in WFS that differ in dead registers, and the step that both take. -/
theorem witness_DeadRegistersDoNotMatter_hunting :
    let s : State := { hunting bigParams true with inbox := [.command { cmd := 0x1AA, now := 8 }] }
    let t : State := { s with buf := listed raw8, idx := 18#9, rem := 5#9, tl := 77 }
    s.Inv ∧ t.Inv ∧ SameLive s t ∧ t.idx ≠ s.idx ∧ goesOn (step s) = true := by
  refine ⟨by decide, by decide, by decide, by decide, by decide +kernel⟩

/-- Two states in RH that differ in dead registers, and the step that both take. -/
theorem witness_DeadRegistersDoNotMatter_header :
    let s : State := { inHeader bigParams [1, 2] 7 with inbox := [.command { cmd := 0x1AA, now := 8 }] }
    let t : State := { s with buf := listed [1, 2, 3], rem := 5#9 }
    s.Inv ∧ t.Inv ∧ SameLive s t ∧ t.rem ≠ s.rem ∧ goesOn (step s) = true := by
  refine ⟨by decide, by decide, by decide, by decide, by decide +kernel⟩

theorem witness_CapacityAbove264IsAs264 :
    (inHeader bigParams [0, 0, 0, 0, 0, 0] 7).Inv ∧ 264 ≤ (inHeader bigParams [0, 0, 0, 0, 0, 0] 7).params.bufCap ∧
    goesOn (exec (.byte 0xFF 8) (inHeader bigParams [0, 0, 0, 0, 0, 0] 7)) = true := by decide +kernel

/-- An index past the end of the buffer; a countdown that ends too early. Neither state satisfies the invariant. -/
theorem witness_StopsOutsideTheInvariant :
    (let s := { inHeader smallParams [] 7 with idx := 9#9 }
     elapsed s.params.clockW 8 s.tl ≤ 500 ∧ s.st ≠ .wfs ∧ s.params.bufCap ≤ s.idx.toNat) ∧
    (let s := { inPayload bigParams (raw8.take 12) 7 with rem := 1#9 }
     elapsed s.params.clockW 8 s.tl ≤ 500 ∧ s.st = .rp ∧ s.idx.toNat < s.params.bufCap ∧ s.rem = 1#9 ∧
     (s.idx + 1#9).toNat ≠ 9 + (s.bufAt 6).toNat) := by decide +kernel

end Sys2Proof.Tests
end

section
/-! Byte order of the multi-octet fields of a frame (R31): what the encoder lays out and what `decode` and the buffer
read. -/

namespace Sys2Proof.Machine

/-! ### Outbound: the octets of a wire frame -/

/-- ENCODE of a payload that fits goes on with the wire frame on `tx` (R50). -/
theorem exec_encode_of_fits {payload : List Byte} (h : payload.length ≤ lenMax) (dst : Half) (ctrl func : Byte)
    (s : State) :
    exec (.encode dst ctrl func payload) s =
      .next (s.quiet.output (wireFrame s.params.masterId dst ctrl func payload)) :=
  encodeFrame_of_fits h dst ctrl func s

section
variable (src dst : Half) (ctrl func : Byte) (payload : List Byte)

/-- The source and the destination follow the two sync octets (R37). -/
theorem wireFrame_addresses :
    ((wireFrame src dst ctrl func payload).drop 2).take 4 = octets16 src ++ octets16 dst := rfl

/-- Before the checksum stand the octets that it sums (R37, R48). -/
theorem wireFrame_take_summed :
    (wireFrame src dst ctrl func payload).take (9 + payload.length) = summedOctets src dst ctrl func payload :=
  List.take_left' (summedOctets_length src dst ctrl func payload)

/-- After the octets that it sums stands the checksum (R37, R48). -/
theorem wireFrame_drop_summed :
    (wireFrame src dst ctrl func payload).drop (9 + payload.length) =
      octets16 (sum16 (summedOctets src dst ctrl func payload)) :=
  List.drop_left' (summedOctets_length src dst ctrl func payload)

end

/-! ### Inbound: the fields of a raw frame and of the buffer -/

/-- The value of a field of a raw frame (R31, R38). -/
theorem rawField_toNat (raw : List Byte) (i : Nat) :
    (rawField raw i).toNat = (rawOctet raw i).toNat * 256 + (rawOctet raw (i + 1)).toNat :=
  be16_toNat _ _

/-- The value of the received checksum, which stands after the payload (R31, R51). -/
theorem rawFields_cs_toNat (raw : List Byte) :
    (rawFields raw).cs.toNat =
      (rawOctet raw (7 + (rawOctet raw 6).toNat)).toNat * 256 + (rawOctet raw (8 + (rawOctet raw 6).toNat)).toNat := by
  have hlow : 8 + (rawOctet raw 6).toNat = hdrLen + (rawOctet raw 6).toNat + 1 := by
    unfold hdrLen
    omega
  rw [hlow]
  exact rawField_toNat raw _

/-- The fields that `decode` hands out are those of the raw frame (R51). -/
theorem decodeRaw_eq_ok {raw : List Byte} {f : FrameFields} (h : decodeRaw raw = some (.ok f)) : f = rawFields raw := by
  obtain ⟨-, hv⟩ := decodeRaw_eq_some h
  rcases validate_cases raw with ⟨-, hm⟩ | ⟨-, hok⟩
  · rw [hm] at hv
    cases hv
  · rw [hok] at hv
    exact Validation.ok.inj hv

/-- The two checksums of a mismatch are the received one and the computed one (R51). -/
theorem decodeRaw_eq_mismatch {raw : List Byte} {cRx cCalc : Half}
    (h : decodeRaw raw = some (.mismatch cRx cCalc)) : cRx = (rawFields raw).cs ∧ cCalc = checksumRaw raw := by
  obtain ⟨-, hv⟩ := decodeRaw_eq_some h
  rcases validate_cases raw with ⟨-, hm⟩ | ⟨-, hok⟩
  · rw [hm] at hv
    exact Validation.mismatch.inj hv
  · rw [hok] at hv
    cases hv

/-! ### R31 -/

/-- Settles O13: outbound, the frame is cut at its addresses and its checksum, each of which is `octets16` of its field;
inbound, each field is `be16` of its two octets. -/
theorem fieldsAreBigEndian : Obligations.FieldsAreBigEndian := by
  refine ⟨octets16_toNat, ?encode, ?ok, ?mismatch, fun _ _ => be16_toNat _ _⟩
  case encode =>
    intro s dst ctrl func payload hfits
    refine ⟨_, exec_encode_of_fits hfits dst ctrl func s, ?_, ?_⟩
    · rw [State.output_tx, wireFrame_addresses, List.map_append, octets16_toNat, octets16_toNat]
      rfl
    · rw [State.output_tx, wireFrame_take_summed, wireFrame_drop_summed]
      exact octets16_toNat _
  case ok =>
    intro raw f h
    rw [decodeRaw_eq_ok h]
    exact ⟨rawField_toNat raw 0, rawField_toNat raw 2, rawFields_cs_toNat raw⟩
  case mismatch =>
    intro raw cRx cCalc h
    obtain ⟨hrx, -⟩ := decodeRaw_eq_mismatch h
    rw [hrx]
    exact rawFields_cs_toNat raw

end Sys2Proof.Machine
end

section
/-! The layout of a frame on the wire (R37): its header, its payload and its checksum, and the §8 frame. -/

namespace Sys2Proof.Machine

section
variable (src dst : Half) (ctrl func : Byte) (payload : List Byte)

/-- After the sync octets and the header stand the payload and the checksum (R37). -/
theorem wireFrame_drop_header :
    (wireFrame src dst ctrl func payload).drop 9 =
      payload ++ octets16 (sum16 (summedOctets src dst ctrl func payload)) := rfl

/-- The payload stands between the header and the checksum (R37). -/
theorem wireFrame_payload :
    ((wireFrame src dst ctrl func payload).drop 9).take payload.length = payload := by
  rw [wireFrame_drop_header, List.take_left]

/-- The two octets after the payload are those of the checksum (R37, R48). -/
theorem wireFrame_getD_checksum (k : Nat) :
    (wireFrame src dst ctrl func payload).getD (9 + payload.length + k) 0 =
      (octets16 (sum16 (summedOctets src dst ctrl func payload))).getD k 0 := by
  rw [← wireFrame_drop_summed, List.getD_eq_getElem?_getD, List.getD_eq_getElem?_getD, List.getElem?_drop]

/-- The field after the payload is the sum of the octets before it, high octet first (R31, R37, R48). -/
theorem wireFrame_rawField_checksum :
    rawField (wireFrame src dst ctrl func payload) (9 + payload.length) =
      sum16 ((wireFrame src dst ctrl func payload).take (9 + payload.length)) := by
  have hhi := wireFrame_getD_checksum src dst ctrl func payload 0
  have hlo := wireFrame_getD_checksum src dst ctrl func payload 1
  rw [wireFrame_take_summed, rawField, rawOctet, rawOctet, hlo]
  exact (congrArg (be16 · _) hhi).trans (be16_hi_lo _)

end

/-! ### The §8 frame (R37, R40) -/

/-- The payload of the §8 frame: a serial identifier of 10 octets (R41). -/
def section8Serial : List Byte := [0x53, 0x32, 0x32, 0x31, 0x31, 0x35, 0x31, 0x34, 0x31, 0x35]

/-- The checksum of the §8 frame covers 19 octets, 55 and AA included, which sum to 0x03A2 (R40). -/
theorem sum16_section8 : sum16 (summedOctets 0 0 0x00 0x80 section8Serial) = 0x03A2#16 := by decide

/-- The §8 frame is its 19 summed octets and 03 A2 (R37, R40). -/
theorem wireFrame_section8 :
    wireFrame 0 0 0x00 0x80 section8Serial = summedOctets 0 0 0x00 0x80 section8Serial ++ [0x03, 0xA2] := by
  rw [wireFrame, sum16_section8]
  rfl

/-- Settles O15: the header is read off the definition, the payload and the checksum where the frame is cut after its
header and after its summed octets; ENCODE puts that frame on `tx`. -/
theorem wireFrameLayout : Obligations.WireFrameLayout := by
  refine ⟨?layout, ?encode, wireFrame_section8⟩
  case layout =>
    intro src dst ctrl func payload hfits
    have hlow : 10 + payload.length = 9 + payload.length + 1 := by omega
    refine ⟨wireFrame_length src dst ctrl func payload, rfl, rfl, be16_hi_lo src, be16_hi_lo dst, rfl, rfl,
      lengthOctet_toNat hfits, wireFrame_payload src dst ctrl func payload, ?_⟩
    rw [hlow]
    exact wireFrame_rawField_checksum src dst ctrl func payload
  case encode =>
    intro s dst ctrl func payload hfits
    exact ⟨_, exec_encode_of_fits hfits dst ctrl func s, State.output_tx _ _⟩

/-- Settles O14: the 19 octets are those that the §8 frame's checksum sums. -/
theorem syncPatternIs55AA : Obligations.SyncPatternIs55AA :=
  ⟨rfl, sum16_section8⟩

end Sys2Proof.Machine
end

section
/-! The checksum (R48, R54) and `decode` (R51) of the octets of a frame: the sum over its indices, the sum by a running
accumulator, and the validation of a raw frame of the right length. -/

namespace Sys2Proof.Machine

/-! ### Octets by their indices -/

/-- The octets of a part of a sequence, by their indices (R10). -/
theorem drop_take_eq_map_getD {s : List Byte} {a n : Nat} (h : a + n ≤ s.length) :
    (s.drop a).take n = (List.range n).map fun k => s.getD (a + k) 0 := by
  apply List.ext_getElem
  · simp only [List.length_take, List.length_drop, List.length_map, List.length_range]
    omega
  · intro i hi _
    have hlt : a + i < s.length := by
      simp only [List.length_take, List.length_drop] at hi
      omega
    simp [List.getElem?_eq_getElem hlt]

/-- The sum of the first octets of a sequence, by their indices (R9). -/
theorem sum16_take {s : List Byte} {n : Nat} (h : n ≤ s.length) :
    sum16 (s.take n) = BitVec.ofNat 16 ((List.range n).map fun k => (s.getD k 0).toNat).sum := by
  have hs := drop_take_eq_map_getD (s := s) (a := 0) (n := n) (by omega)
  simp only [List.drop_zero, Nat.zero_add] at hs
  rw [hs, sum16, List.map_map]
  rfl

/-- The two sync octets add 0x00FF to the sum of the octets after them (R48). -/
theorem sum16_sync_append (s : List Byte) : sum16 ([sync0, sync1] ++ s) = 0x00FF#16 + sum16 s :=
  sum16_append [sync0, sync1] s

/-! ### The checksum (R48, R54) -/

/-- The checksum of a raw frame is that of the wire octets with the sync octets before it (R48). -/
theorem checksumWire_sync_cons (raw : List Byte) : checksumWire (sync0 :: sync1 :: raw) = checksumRaw raw := by
  have hraw : rawOctet (sync0 :: sync1 :: raw) 8 = rawOctet raw 6 := rfl
  have hlen : 9 + (rawOctet raw 6).toNat = hdrLen + (rawOctet raw 6).toNat + 2 := by
    unfold hdrLen
    omega
  rw [checksumWire, hraw, hlen]
  rfl

/-- Wire octets of which the first two are the sync octets. -/
theorem eq_sync_cons_drop {w : List Byte} (hlen : 2 ≤ w.length) (h0 : w.getD 0 0 = sync0) (h1 : w.getD 1 0 = sync1) :
    w = sync0 :: sync1 :: w.drop 2 := by
  match w, hlen with
  | a :: b :: raw, _ =>
    cases h0
    cases h1
    rfl

/-- The wire checksum is the sum of `w[0..8+L]` mod 2^16 (R48). -/
theorem checksumWire_eq_sum {w : List Byte} {L : Nat} (hL : L = (rawOctet w 8).toNat) (hlen : 9 + L ≤ w.length) :
    checksumWire w = BitVec.ofNat 16 ((List.range (9 + L)).map fun k => (w.getD k 0).toNat).sum := by
  rw [checksumWire, ← hL, sum16_take hlen]

/-- The raw checksum is 0x00FF and the sum of `raw[0..6+L]` mod 2^16 (R48). -/
theorem checksumRaw_eq_sum {raw : List Byte} {L : Nat} (hL : L = (rawOctet raw 6).toNat) (hlen : 7 + L ≤ raw.length) :
    checksumRaw raw = BitVec.ofNat 16 (0x00FF + ((List.range (7 + L)).map fun i => (raw.getD i 0).toNat).sum) := by
  rw [checksumRaw, ← hL, sum16_sync_append, hdrLen, sum16_take hlen, BitVec.ofNat_add]

/-- The octets that the checksum of an encoded frame sums are those before it (R48). -/
theorem checksumWire_wireFrame (src dst : Half) (ctrl func : Byte) {payload : List Byte} (h : payload.length ≤ lenMax) :
    checksumWire (wireFrame src dst ctrl func payload) = sum16 (summedOctets src dst ctrl func payload) := by
  have h8 : rawOctet (wireFrame src dst ctrl func payload) 8 = lengthOctet payload := rfl
  rw [checksumWire, h8, lengthOctet_toNat h, wireFrame_take_summed]

/-- An accumulator to which octets are added mod 2^16 gains their sum. -/
theorem foldl_add_octets (acc : Half) (octets : List Byte) :
    octets.foldl (fun acc b => acc + b.setWidth 16) acc = acc + sum16 octets := by
  induction octets generalizing acc with
  | nil => simp
  | cons b octets ih => rw [List.foldl_cons, ih, sum16_cons, BitVec.add_assoc]

/-- The running accumulator is the sum of the sync octets and the accepted ones (R54). -/
theorem runningSum_eq_sum16 (octets : List Byte) : runningSum octets = sum16 ([sync0, sync1] ++ octets) := by
  rw [sum16_sync_append]
  exact foldl_add_octets _ octets

/-- Settles O21: the accumulator starts with the sum of the sync octets and adds the octets that `decode` sums. -/
theorem runningAccumulatorAgrees : Obligations.RunningAccumulatorAgrees :=
  fun _ => runningSum_eq_sum16 _

/-- Settles O16: the wire octets are the sync octets and the raw frame; a sum over indices is the sum of a prefix; the
encoded frame is cut after the octets that it sums. -/
theorem checksumIsTruncatingSumOfFrame : Obligations.ChecksumIsTruncatingSumOfFrame := by
  refine ⟨?forms, ?appended⟩
  case forms =>
    intro w L hL hlen h0 h1
    have hw := eq_sync_cons_drop (by omega) h0 h1
    have hraw : L = (rawOctet (w.drop 2) 6).toNat := by
      rw [hw] at hL
      exact hL
    have hdrop : 7 + L ≤ (w.drop 2).length := by
      rw [List.length_drop]
      omega
    refine ⟨checksumWire_eq_sum hL (by omega), ?_, checksumRaw_eq_sum hraw hdrop⟩
    rw [← checksumWire_sync_cons, ← hw]
  case appended =>
    intro src dst ctrl func payload hfits
    rw [wireFrame_drop_summed, checksumWire_wireFrame src dst ctrl func hfits]
    rfl

/-! ### `decode` of a raw frame (R51) -/

/-- `decode` answers a raw frame of the right length with its validation (R51, R52). -/
theorem decodeRaw_of_length {raw : List Byte} (h : raw.length = 9 + (rawOctet raw 6).toNat) :
    decodeRaw raw = some (validate raw) :=
  if_pos ⟨by unfold hdrLen; omega, h⟩

/-- The received checksum stands in the two octets after the payload (R51). -/
theorem rawFields_cs (raw : List Byte) :
    (rawFields raw).cs =
      be16 (rawOctet raw (7 + (rawOctet raw 6).toNat)) (rawOctet raw (8 + (rawOctet raw 6).toNat)) := by
  rw [show 8 + (rawOctet raw 6).toNat = hdrLen + (rawOctet raw 6).toNat + 1 by unfold hdrLen; omega]
  rfl

/-- The payload of a raw frame of the right length, by the indices of its octets (R51). -/
theorem rawFields_payload {raw : List Byte} (h : raw.length = 9 + (rawOctet raw 6).toNat) :
    (rawFields raw).payload = (List.range (rawOctet raw 6).toNat).map fun k => rawOctet raw (7 + k) :=
  drop_take_eq_map_getD (by unfold hdrLen; omega)

/-- The fields of a raw frame of the right length, octet by octet (R51). -/
theorem rawFields_of_length {raw : List Byte} (h : raw.length = 9 + (rawOctet raw 6).toNat) :
    rawFields raw = {
      src := be16 (rawOctet raw 0) (rawOctet raw 1)
      dst := be16 (rawOctet raw 2) (rawOctet raw 3)
      ctrl := rawOctet raw 4
      func := rawOctet raw 5
      len := rawOctet raw 6
      payload := (List.range (rawOctet raw 6).toNat).map fun k => rawOctet raw (7 + k)
      cs := be16 (rawOctet raw (7 + (rawOctet raw 6).toNat)) (rawOctet raw (8 + (rawOctet raw 6).toNat)) } := by
  rw [← rawFields_payload h, ← rawFields_cs]
  rfl

/-- Settles O19: `decode` answers with the validation of the raw frame, which is a mismatch or hands out its fields. -/
theorem decodeValidatesRawFrame : Obligations.DecodeValidatesRawFrame := by
  intro raw L hL hlen cCalc cRx
  subst hL
  have hcs : (rawFields raw).cs = cRx := rawFields_cs raw
  have hcalc : checksumRaw raw = cCalc := rfl
  rw [decodeRaw_of_length hlen]
  rcases validate_cases raw with ⟨hne, hv⟩ | ⟨heq, hv⟩
  · rw [hcs, hcalc] at hne hv
    exact ⟨fun _ => congrArg some hv, fun heq => absurd heq hne⟩
  · rw [hcs, hcalc] at heq
    rw [rawFields_of_length hlen] at hv
    exact ⟨fun hne => absurd heq hne, fun _ => congrArg some hv⟩

end Sys2Proof.Machine
end

section
/-! The encodings (R41, R42, R44, R46): a command word and its two fields, the decoder and the encoder of command words
and of frame kinds, and the words of a program's lines. -/

namespace Sys2Proof

/-! ### The two fields of a command word (R42) -/

@[simp] theorem cmdOp_append (op : BitVec 2) (arg : Byte) : cmdOp (op ++ arg : BitVec 10) = op := by
  apply BitVec.eq_of_getLsbD_eq
  intro i hlt
  have h : (op ++ arg : BitVec 10).getLsbD (8 + i) = _ := BitVec.getLsbD_append
  simp [cmdOp, hlt, h]

@[simp] theorem cmdArg_append (op : BitVec 2) (arg : Byte) : cmdArg (op ++ arg : BitVec 10) = arg := by
  apply BitVec.eq_of_getLsbD_eq
  intro i hlt
  have h : (op ++ arg : BitVec 10).getLsbD i = _ := BitVec.getLsbD_append
  simp [cmdArg, hlt, h]

/-- A command word is its operation and its argument. -/
theorem cmdOp_append_cmdArg (w : BitVec 10) : (cmdOp w ++ cmdArg w : BitVec 10) = w := by
  apply BitVec.eq_of_toNat_eq
  have hw := w.isLt
  have harg := (cmdArg w).isLt
  rw [BitVec.toNat_append, ← Nat.shiftLeft_add_eq_or_of_lt harg, Nat.shiftLeft_eq]
  simp only [cmdOp, cmdArg, BitVec.extractLsb'_toNat, Nat.shiftRight_eq_div_pow]
  omega

/-- The number of a command word. -/
theorem append_eq_ofNat (op : BitVec 2) (arg : Byte) :
    (op ++ arg : BitVec 10) = BitVec.ofNat 10 (op.toNat * 256 + arg.toNat) := by
  apply BitVec.eq_of_toNat_eq
  have hop := op.isLt
  have harg := arg.isLt
  rw [BitVec.toNat_append, ← Nat.shiftLeft_add_eq_or_of_lt harg, Nat.shiftLeft_eq, BitVec.toNat_ofNat]
  omega

/-! ### Command words -/

/-- The decoder of command words reads each command's own word (R42). -/
@[simp] theorem decodeCommandWord_encodeCommandWord (c : Command) :
    decodeCommandWord (encodeCommandWord c) = some c := by
  cases c with
  | tick => rfl
  | byte b => simp [decodeCommandWord, encodeCommandWord]
  | encode n => simp [decodeCommandWord, encodeCommandWord]
  | reset => rfl

/-- What the decoder answers on a command word, by the word's two fields (R42, R44). -/
theorem decodeCommandWord_cases {w : BitVec 10} {c : Command} (h : decodeCommandWord w = some c) :
    (cmdOp w = 0b01#2 ∧ c = .byte (cmdArg w)) ∨ (cmdOp w = 0b10#2 ∧ c = .encode (cmdArg w)) ∨
    (cmdOp w = 0b00#2 ∧ cmdArg w = 0#8 ∧ c = .tick) ∨ (cmdOp w = 0b11#2 ∧ cmdArg w = 0#8 ∧ c = .reset) := by
  unfold decodeCommandWord at h
  split at h
  · next hop => exact .inl ⟨hop, by simpa using h.symm⟩
  split at h
  · next hop => exact .inr (.inl ⟨hop, by simpa using h.symm⟩)
  split at h
  · cases h
  next harg =>
  split at h
  · next hop => exact .inr (.inr (.inl ⟨hop, not_not.mp harg, by simpa using h.symm⟩))
  · next h1 h2 h0 =>
    have h3 : ∀ op : BitVec 2, ¬op = 0b01#2 → ¬op = 0b10#2 → ¬op = 0b00#2 → op = 0b11#2 := by decide
    exact .inr (.inr (.inr ⟨h3 _ h1 h2 h0, not_not.mp harg, by simpa using h.symm⟩))

/-- A word with an argument and an operation that takes none is reserved (R44, D2). -/
theorem decodeCommandWord_reserved {op : BitVec 2} {arg : Byte} (hop : op = 0b00#2 ∨ op = 0b11#2) (harg : arg ≠ 0#8) :
    decodeCommandWord (op ++ arg : BitVec 10) = none := by
  rcases hop with rfl | rfl <;> simp [decodeCommandWord, harg]

/-- The decoder rejects a reserved word by name. -/
theorem decode_command_reserved {p : Ports} (h : decodeCommandWord p.cmd = none) :
    decode (.command p) = .invalid (.reservedCommand p.cmd) := by
  simp [decode, decodePorts, h]

/-! ### Decoding an encoding -/

/-- The word of an ENCODE carries the length of its payload, which the port then holds in full (R42, R50). -/
theorem decode_encode_encode {payload : List Byte} (h : payload.length ≤ lenMax) (dst : Half) (ctrl func : Byte) :
    decode (encode (.encode dst ctrl func payload)) = .ok (.encode dst ctrl func payload) := by
  have hn : (lengthOctet payload).toNat = payload.length := Machine.lengthOctet_toNat h
  simp [decode, encode, decodePorts, hn]

/-- The ten octets of a serial identifier and the address after them are told apart by their places (R41). -/
theorem decode_encode_allocateAddress {serial : List Byte} (h : serial.length = 10) (address : Byte) :
    decode (encode (.allocateAddress serial address)) = .ok (.allocateAddress serial address) := by
  have htake : (serial ++ [address]).take 10 = serial := List.take_left' h
  have hget : (serial ++ [address]).getD 10 0 = address := by simp [List.getD, h]
  have hkey : kindKey 0x00 0x01 ≠ kindKey 0x00 0x00 := by decide
  simp only [decode, encode, decodeFrame, if_neg hkey, htake, hget]
  simp [h]

/-- A registration request is read back from its key and its fields (R41). -/
theorem decode_encode_registrationRequest {serial : List Byte} (h : serialFits serial = true) (src dst : Half)
    (t0 d : Nat) :
    decode (encode (.registrationRequest src dst serial t0 d)) = .ok (.registrationRequest src dst serial t0 d) := by
  have hkey : kindKey 0x00 0x80 ≠ kindKey 0x00 0x00 ∧ kindKey 0x00 0x80 ≠ kindKey 0x00 0x01 ∧
    kindKey 0x00 0x80 ≠ kindKey 0x01 0x02 := by decide
  obtain ⟨h1, h2, h3⟩ := hkey
  simp only [decode, encode, decodeFrame, if_neg h1, if_neg h2, if_neg h3, h, if_true]

/-- A registration confirmation is read back from its key and its fields (R41). -/
theorem decode_encode_registrationConfirmation {payload : List Byte} (h : payloadFits payload = true) (src dst : Half)
    (t0 d : Nat) :
    decode (encode (.registrationConfirmation src dst payload t0 d)) =
      .ok (.registrationConfirmation src dst payload t0 d) := by
  have hkey : kindKey 0x00 0x81 ≠ kindKey 0x00 0x00 ∧ kindKey 0x00 0x81 ≠ kindKey 0x00 0x01 ∧
    kindKey 0x00 0x81 ≠ kindKey 0x01 0x02 ∧ kindKey 0x00 0x81 ≠ kindKey 0x00 0x80 := by decide
  obtain ⟨h1, h2, h3, h4⟩ := hkey
  simp only [decode, encode, decodeFrame, if_neg h1, if_neg h2, if_neg h3, if_neg h4, h, if_true]

/-- An information response is read back from its key and its fields (R41). -/
theorem decode_encode_informationResponse {payload : List Byte} (h : telemetryFits payload = true) (src dst : Half)
    (t0 d : Nat) :
    decode (encode (.informationResponse src dst payload t0 d)) = .ok (.informationResponse src dst payload t0 d) := by
  have hkey : kindKey 0x01 0x81 ≠ kindKey 0x00 0x00 ∧ kindKey 0x01 0x81 ≠ kindKey 0x00 0x01 ∧
    kindKey 0x01 0x81 ≠ kindKey 0x01 0x02 ∧ kindKey 0x01 0x81 ≠ kindKey 0x00 0x80 ∧
    kindKey 0x01 0x81 ≠ kindKey 0x00 0x81 := by decide
  obtain ⟨h1, h2, h3, h4, h5⟩ := hkey
  simp only [decode, encode, decodeFrame, if_neg h1, if_neg h2, if_neg h3, if_neg h4, if_neg h5, h, if_true]

/-- Settles O4: command by command and kind by kind; the lengths that a word does not carry are those of `wf`. -/
theorem decodeOfEncodeIsIdentity : Obligations.DecodeOfEncodeIsIdentity := by
  intro i hwf
  cases i with
  | tick now => simp [decode, encode, decodePorts]
  | byte b now => exact Machine.decode_encode_byte b now
  | encode dst ctrl func payload => exact decode_encode_encode (Machine.payloadFits_iff.mp hwf) dst ctrl func
  | reset => simp [decode, encode, decodePorts]
  | discovery => rfl
  | allocateAddress serial address => exact decode_encode_allocateAddress (Machine.serialFits_iff.mp hwf) address
  | informationRequest target => rfl
  | registrationRequest src dst serial t0 d => exact decode_encode_registrationRequest hwf src dst t0 d
  | registrationConfirmation src dst payload t0 d => exact decode_encode_registrationConfirmation hwf src dst t0 d
  | informationResponse src dst payload t0 d => exact decode_encode_informationResponse hwf src dst t0 d

/-! ### What the decoder answers is well-formed -/

/-- An ENCODE read from the ports has at most 255 octets, because its length is an octet (R42). -/
theorem decodePorts_wf {p : Ports} {i : Instr} (h : decodePorts p = .ok i) : i.wf = true := by
  unfold decodePorts at h
  split at h
  · cases h
  · cases h; rfl
  · cases h; rfl
  · next n _ =>
    split at h
    · cases h
      have hlen : (p.encPayload.take n.toNat).length ≤ lenMax :=
        (List.length_take_le _ _).trans (Nat.le_of_lt_succ n.isLt)
      exact Machine.payloadFits_iff.mpr hlen
    · cases h
  · cases h; rfl

/-- A frame kind is answered only where its row of R41 admits the payload. -/
theorem decodeFrame_wf {f : FrameDesc} {i : Instr} (h : decodeFrame f = .ok i) : i.wf = true := by
  unfold decodeFrame at h
  split at h
  · split at h <;> cases h
    rfl
  split at h
  · split at h
    · next hp =>
      cases h
      exact Machine.serialFits_iff.mpr (by simp [hp.2])
    · cases h
  split at h
  · split at h <;> cases h
    rfl
  split at h
  · split at h
    · next hp => cases h; exact hp
    · cases h
  split at h
  · split at h
    · next hp => cases h; exact hp
    · cases h
  split at h
  · split at h
    · next hp => cases h; exact hp
    · cases h
  · cases h

/-- Settles O6: the decoder of ports and the decoder of frame kinds each answer well-formed instructions. -/
theorem decodedInstructionsAreWellFormed : Obligations.DecodedInstructionsAreWellFormed := by
  intro item i h
  cases item with
  | command p => exact decodePorts_wf h
  | frame f => exact decodeFrame_wf h

/-! ### The words of a program's lines (R46) -/

/-- The word of BYTE, as a number. -/
theorem encodeCommandWord_byte_eq_ofNat (b : Byte) :
    encodeCommandWord (.byte b) = BitVec.ofNat 10 (0x100 + b.toNat) :=
  append_eq_ofNat 0b01#2 b

/-- The word of an ENCODE whose payload fits, as a number. -/
theorem encodeCommandWord_encode_eq_ofNat {payload : List Byte} (h : payload.length ≤ lenMax) :
    encodeCommandWord (.encode (lengthOctet payload)) = BitVec.ofNat 10 (0x200 + payload.length) := by
  rw [← Machine.lengthOctet_toNat h]
  exact append_eq_ofNat 0b10#2 (lengthOctet payload)

@[simp] theorem bytesAt_length (hs : List Byte) (t d : Nat) : (bytesAt hs t d).length = hs.length := by
  induction hs generalizing t with
  | nil => rfl
  | cons b hs ih => simp [bytesAt, ih]

/-- Octet `k` of BYTES is presented `k` gaps after the first. -/
theorem bytesAt_getElem? {hs : List Byte} {k : Nat} (hk : k < hs.length) (t d : Nat) :
    (bytesAt hs t d)[k]? = some (encode (.byte (hs.getD k 0) (t + k * d))) := by
  induction hs generalizing t k with
  | nil => cases hk
  | cons b hs ih =>
    cases k with
    | zero => simp [bytesAt]
    | succ k =>
      have htime : t + d + k * d = t + (k + 1) * d := by rw [Nat.add_one_mul]; omega
      simpa [bytesAt, htime] using ih (t := t + d) (Nat.lt_of_succ_lt_succ hk)

/-- Settles O7: the words of BYTE and ENCODE as numbers, and BYTES octet by octet. -/
theorem bytesExpandToOneBytePerOctet : Obligations.BytesExpandToOneBytePerOctet := by
  refine ⟨fun _ => rfl, fun b t => ?byte, fun dst ctrl func payload t hfits => ?encode, fun _ => rfl,
    fun hs t0 d => ⟨rfl, rfl, bytesAt_length hs t0 d, fun k hk => ?octet⟩, fun _ _ => List.flatMap_cons⟩
  case byte => rw [AsmLine.assemble, encodeCommandWord_byte_eq_ofNat]
  case encode => rw [AsmLine.assemble, encodeCommandWord_encode_eq_ofNat hfits]
  case octet => rw [bytesAt_getElem? hk, encode, encodeCommandWord_byte_eq_ofNat]

/-! ### The table of command words -/

/-- Settles O1: the four commands' words are their encodings; the step refuses what the decoder rejects. -/
theorem commandWordsDecodeAsTabled : Obligations.CommandWordsDecodeAsTabled := by
  refine ⟨decodeCommandWord_encodeCommandWord .tick, fun b => decodeCommandWord_encodeCommandWord (.byte b),
    fun n => decodeCommandWord_encodeCommandWord (.encode n), decodeCommandWord_encodeCommandWord .reset,
    fun arg harg => ⟨decodeCommandWord_reserved (.inl rfl) harg, decodeCommandWord_reserved (.inr rfl) harg⟩, ?_⟩
  intro s p rest hnone hinbox
  simp [Machine.step, hinbox, decode_command_reserved hnone]

/-- Settles O2: the 1024 words are decoded one by one. -/
theorem reservedCommandWordsNumber510 : Obligations.ReservedCommandWordsNumber510 := by
  refine ⟨?_, ?_, ?_, ?_, ?_⟩ <;> decide +kernel

/-- Settles O3: each word is read by the decoder. -/
theorem sampleWordsDecode : Obligations.SampleWordsDecode := by
  unfold Obligations.SampleWordsDecode
  decide

/-- Settles O5: a command is encoded as the operation and the argument it was read from. -/
theorem encodeOfDecodedCommandWord : Obligations.EncodeOfDecodedCommandWord := by
  intro w c h
  have hw := cmdOp_append_cmdArg w
  rcases decodeCommandWord_cases h with ⟨hop, rfl⟩ | ⟨hop, rfl⟩ | ⟨hop, harg, rfl⟩ | ⟨hop, harg, rfl⟩
  · rwa [hop] at hw
  · rwa [hop] at hw
  · rwa [hop, harg] at hw
  · rwa [hop, harg] at hw

end Sys2Proof
end

section
/-! The step and the instructions: what a step runs (R15, R42), each instruction's form as a function of the state, the
terms that are refused, and what no step changes or reads (R25, R75). -/

namespace Sys2Proof.Machine

/-! ### The step -/

/-- A step runs the instruction that the oldest entry decodes to, with the entry consumed (R15, R42). -/
theorem step_of_decode_ok {s : State} {item : HostItem} {rest : List HostItem} {i : Instr}
    (hq : s.inbox = item :: rest) (hd : decode item = .ok i) : step s = exec i (s.present rest) := by
  simp [step, hq, hd]

/-- A rejected entry takes no step (R44). -/
theorem step_of_decode_invalid {s : State} {item : HostItem} {rest : List HostItem} {e : DecodeError}
    (hq : s.inbox = item :: rest) (hd : decode item = .invalid e) : step s = .refused (.invalid e) := by
  simp [step, hq, hd]

/-- With nothing presented the outputs fall quiet (R85). -/
theorem step_of_inbox_nil {s : State} (hq : s.inbox = []) : step s = .next s.quiet := by
  simp [step, hq]

/-- Settles O8: the three cases of a step. -/
theorem stepRunsDecodedInstruction : Obligations.StepRunsDecodedInstruction :=
  ⟨fun _ _ _ _ => step_of_decode_ok, fun _ _ _ _ => step_of_decode_invalid, fun _ => step_of_inbox_nil⟩

/-- A bare table word is read where the decoder answers on its entry. -/
theorem decode_tableItem {nbits w : Nat} {i : Instr} (h : decodeTableWord nbits w = some i) :
    decode (tableItem nbits w) = .ok i := by
  unfold decodeTableWord at h
  split at h
  · next hd => rw [hd, Option.some.inj h]
  · cases h

/-- Settles O9: the word that is placed is the oldest entry, and consuming it leaves the state as it was. -/
theorem fetchWordRunsTheTableWord : Obligations.FetchWordRunsTheTableWord :=
  fun s _ _ _ h => step_of_decode_ok (s := s.withFetchWord _ _) rfl (decode_tableItem h)

/-! ### The form of every instruction -/

theorem exec_byte (b : Byte) (now : Nat) (s : State) : exec (.byte b now) s = byteStep b now s := rfl

theorem exec_tick (now : Nat) (s : State) : exec (.tick now) s = .next (s.quiet.stallCheck now) := rfl

theorem exec_reset (s : State) : exec .reset s = .next s.quiet.goWFS.forget := rfl

/-- The state in which the first octet of an inbound frame is taken: the BYTEs of the other octets stand before what the
host presents (R46). -/
def State.presentTail (src dst : Half) (ctrl func : Byte) (payload : List Byte) (t0 d : Nat) (s : State) : State :=
  s.present (bytesAt (wireFrame src dst ctrl func payload).tail (t0 + d) d ++ s.inbox)

theorem exec_registrationRequest {serial : List Byte} (h : serialFits serial = true) (src dst : Half) (t0 d : Nat)
    (s : State) :
    exec (.registrationRequest src dst serial t0 d) s =
      byteStep sync0 t0 (s.presentTail src dst 0x00 0x80 serial t0 d) :=
  (if_pos h).trans (presentBytes_wireFrame ..)

theorem exec_registrationConfirmation {payload : List Byte} (h : payloadFits payload = true) (src dst : Half)
    (t0 d : Nat) (s : State) :
    exec (.registrationConfirmation src dst payload t0 d) s =
      byteStep sync0 t0 (s.presentTail src dst 0x00 0x81 payload t0 d) :=
  (if_pos h).trans (presentBytes_wireFrame ..)

theorem exec_informationResponse {payload : List Byte} (h : telemetryFits payload = true) (src dst : Half)
    (t0 d : Nat) (s : State) :
    exec (.informationResponse src dst payload t0 d) s =
      byteStep sync0 t0 (s.presentTail src dst 0x01 0x81 payload t0 d) :=
  (if_pos h).trans (presentBytes_wireFrame ..)

theorem exec_discovery (s : State) :
    exec .discovery s = .next (s.quiet.output (wireFrame s.params.masterId 0 0x00 0x00 [])) :=
  encodeFrame_of_fits (payload := []) (Nat.zero_le _) _ _ _ s

theorem exec_allocateAddress {serial : List Byte} (h : serialFits serial = true) (address : Byte) (s : State) :
    exec (.allocateAddress serial address) s =
      .next (s.quiet.output (wireFrame s.params.masterId 0 0x00 0x01 (serial ++ [address]))) := by
  have hlen : (serial ++ [address]).length ≤ lenMax := by
    simp [serialFits_iff.mp h, lenMax]
  exact (if_pos h).trans (encodeFrame_of_fits hlen ..)

theorem exec_informationRequest (target : Half) (s : State) :
    exec (.informationRequest target) s = .next (s.quiet.output (wireFrame s.params.masterId target 0x01 0x02 [])) :=
  encodeFrame_of_fits (payload := []) (Nat.zero_le _) _ _ _ s

/-- What an instruction is as a function of the state: a BYTE step with some BYTEs put before what is presented, a time
check, the transmission of a frame, or a reset. -/
inductive ExecForm (i : Instr) : Prop where
  /-- BYTE, or an inbound kind. -/
  | octet (b : Byte) (now : Nat) (pre : List HostItem)
      (hx : ∀ s, exec i s = byteStep b now (s.present (pre ++ s.inbox)))
  /-- TICK. -/
  | check (now : Nat) (hx : ∀ s, exec i s = .next (s.quiet.stallCheck now))
  /-- ENCODE, or an outbound kind. -/
  | transmit (dst : Half) (ctrl func : Byte) (payload : List Byte)
      (hx : ∀ s, exec i s = .next (s.quiet.output (wireFrame s.params.masterId dst ctrl func payload)))
  /-- RESET. -/
  | clear (hx : ∀ s, exec i s = .next s.quiet.goWFS.forget)

/-- Every well-formed instruction has a form. -/
theorem execForm_of_wf {i : Instr} (hwf : i.wf = true) : ExecForm i := by
  cases i with
  | tick now => exact .check now (exec_tick now)
  | byte b now => exact .octet b now [] (exec_byte b now)
  | encode dst ctrl func payload =>
    exact .transmit dst ctrl func payload (exec_encode_of_fits (payloadFits_iff.mp hwf) dst ctrl func)
  | reset => exact .clear exec_reset
  | discovery => exact .transmit _ _ _ _ exec_discovery
  | allocateAddress serial address => exact .transmit _ _ _ _ (exec_allocateAddress hwf address)
  | informationRequest target => exact .transmit _ _ _ _ (exec_informationRequest target)
  | registrationRequest src dst serial t0 d => exact .octet _ _ _ (exec_registrationRequest hwf src dst t0 d)
  | registrationConfirmation src dst payload t0 d =>
    exact .octet _ _ _ (exec_registrationConfirmation hwf src dst t0 d)
  | informationResponse src dst payload t0 d => exact .octet _ _ _ (exec_informationResponse hwf src dst t0 d)

/-- Settles O12: the meaning of each instruction with lengths checks them first. -/
theorem illFormedTermsAreRefused : Obligations.IllFormedTermsAreRefused := by
  intro i s hwf
  have hneg : ¬i.wf = true := Bool.not_eq_true _ ▸ hwf
  cases i with
  | tick _ => cases hwf
  | byte _ _ => cases hwf
  | reset => cases hwf
  | discovery => cases hwf
  | informationRequest _ => cases hwf
  | encode _ _ _ _ => exact if_neg hneg
  | allocateAddress _ _ => exact if_neg hneg
  | registrationRequest _ _ _ _ _ => exact if_neg hneg
  | registrationConfirmation _ _ _ _ _ => exact if_neg hneg
  | informationResponse _ _ _ _ _ => exact if_neg hneg

/-- An instruction that completes is well-formed. -/
theorem wf_of_exec_next {i : Instr} {s t : State} (h : exec i s = .next t) : i.wf = true := by
  by_contra hneg
  rw [illFormedTermsAreRefused i s (Bool.not_eq_true _ ▸ hneg)] at h
  cases h

/-! ### What no step changes or reads -/

/-- A completion that answers a next state is `GoWFS()` with an event (R63). -/
theorem complete_eq_abort {s t : State} (h : complete s = .next t) : ∃ e, t = s.abort e := by
  obtain ⟨-, ⟨-, ht⟩ | ⟨-, ht⟩⟩ := complete_cases h
  · exact ⟨_, ht⟩
  · exact ⟨_, ht⟩

/-- Taking an octet changes no parameter, nothing of what is presented and no free value, and transmits nothing. -/
theorem OctetStep.frame {b : Byte} {now : Nat} {s t : State} (h : OctetStep b now s t) :
    t.params = s.params ∧ t.draws = s.draws ∧ t.inbox = s.inbox ∧ t.tx = [] ∧ t.txLen = none := by
  cases h with
  | last _ _ _ _ ht =>
    obtain ⟨e, rfl⟩ := complete_eq_abort ht
    exact ⟨rfl, rfl, rfl, rfl, rfl⟩
  | _ => subst t; exact ⟨rfl, rfl, rfl, rfl, rfl⟩

/-- No instruction changes a parameter (R25). -/
theorem exec_params {i : Instr} {s t : State} (h : exec i s = .next t) : t.params = s.params := by
  rcases exec_cases h with ⟨b, now, q, -, -, -, hx⟩ | ⟨now, -, rfl⟩ | ⟨-, -, -, _, _, _, _, -, rfl⟩ | ⟨-, rfl⟩
  · exact hx.frame.1
  · exact State.stallCheck_params _ _
  · rfl
  · rfl

/-- Settles O10: a step is idle or an instruction, and neither writes a parameter. -/
theorem parametersNeverChange : Obligations.ParametersNeverChange := by
  intro s t h
  rcases step_cases h with ⟨-, rfl⟩ | ⟨item, rest, i, -, -, hx⟩
  · rfl
  · exact exec_params (s := s.present rest) hx

/-- Settles O11: every instruction starts from quiet outputs. -/
theorem outputsAreNotLatched : Obligations.OutputsAreNotLatched := by
  intro i s e x l
  cases i <;> rfl

/-- Settles O23: an ENCODE that completes changes the outputs alone, and no instruction reads them. -/
theorem encodeLeavesReceptionAlone : Obligations.EncodeLeavesReceptionAlone := by
  intro s t dst ctrl func payload j h
  obtain ⟨-, rfl⟩ := encodeFrame_next h
  exact outputsAreNotLatched j s _ _ _

end Sys2Proof.Machine
end

section
/-! The codec and the transmitted frames: the sum of a frame's octets (R48, R49), `decode` of a frame that was encoded
(R52, R53), and what ENCODE and the outbound kinds put on `tx` (R50, R56, R35). -/

namespace Sys2Proof.Machine

/-! ### The sum of a frame (R49) -/

/-- Settles O17: a sum of numbers does not depend on their order. -/
theorem checksumIgnoresOctetOrder : Obligations.ChecksumIgnoresOctetOrder :=
  fun _ _ h => congrArg (BitVec.ofNat 16) (h.map BitVec.toNat).sum_eq

/-- The untruncated sum of a frame, field by field. -/
theorem sum_summedOctets (src dst : Half) (ctrl func : Byte) (payload : List Byte) :
    ((summedOctets src dst ctrl func payload).map BitVec.toNat).sum =
      0xFF + (hiOctet src).toNat + (loOctet src).toNat + (hiOctet dst).toNat + (loOctet dst).toNat + ctrl.toNat +
        func.toNat + (lengthOctet payload).toNat + (payload.map BitVec.toNat).sum := by
  rw [summedOctets_eq]
  simp
  omega

theorem sum16_toNat (octets : List Byte) : (sum16 octets).toNat = (octets.map BitVec.toNat).sum % 65536 :=
  BitVec.toNat_ofNat ..

/-- An octet adds at most 255 to a sum. -/
theorem sum_octets_le (octets : List Byte) : (octets.map BitVec.toNat).sum ≤ 255 * octets.length := by
  induction octets with
  | nil => simp
  | cons b octets ih =>
    have hb := b.isLt
    simp only [List.map_cons, List.sum_cons, List.length_cons]
    omega

/-- The untruncated sum of a frame of `L` payload octets is at most `1785 + 256 * L`: seven octets of 255, the length
octet and the payload (R49). -/
theorem sum_summedOctets_le (src dst : Half) (ctrl func : Byte) {payload : List Byte} (h : payload.length ≤ lenMax) :
    ((summedOctets src dst ctrl func payload).map BitVec.toNat).sum ≤ 1785 + 256 * payload.length := by
  have hpayload := sum_octets_le payload
  have hsh := (hiOctet src).isLt
  have hsl := (loOctet src).isLt
  have hdh := (hiOctet dst).isLt
  have hdl := (loOctet dst).isLt
  have hctrl := ctrl.isLt
  have hfunc := func.isLt
  rw [sum_summedOctets, lengthOctet_toNat h]
  omega

/-- The bound is reached where every octet that can be is FF (R49). -/
theorem sum_summedOctets_of_all_ff {L : Nat} (h : L ≤ lenMax) :
    ((summedOctets 0xFFFF 0xFFFF 0xFF 0xFF (List.replicate L 0xFF)).map BitVec.toNat).sum = 1785 + 256 * L := by
  have hhi : (hiOctet 0xFFFF).toNat = 255 := rfl
  have hlo : (loOctet 0xFFFF).toNat = 255 := rfl
  have hff : (0xFF : Byte).toNat = 255 := rfl
  have hlen : (lengthOctet (List.replicate L (0xFF : Byte))).toNat = L := by
    rw [lengthOctet_toNat (by simpa using h), List.length_replicate]
  rw [sum_summedOctets, hhi, hlo, hff, hlen, List.map_replicate, List.sum_replicate, hff, smul_eq_mul]
  omega

/-- Settles O18: below 2^16 the truncation changes nothing, and `1785 + 256 * L` passes 2^16 between 249 and 250. -/
theorem checksumTruncatesOnlyAbove249 : Obligations.ChecksumTruncatesOnlyAbove249 := by
  refine ⟨?bound, ?cut, ?longest⟩
  case bound =>
    intro src dst ctrl func payload hfits
    have hle := sum_summedOctets_le src dst ctrl func hfits
    refine ⟨hle, fun h249 => ?_⟩
    rw [sum16_toNat, Nat.mod_eq_of_lt]
    omega
  case cut =>
    intro L h250 h255 w
    have hsum : (w.map BitVec.toNat).sum = 1785 + 256 * L := sum_summedOctets_of_all_ff h255
    have hcut : (sum16 w).toNat = (1785 + 256 * L) % 65536 := by rw [sum16_toNat, hsum]
    refine ⟨hsum, ?_, ?_, ?_⟩ <;> omega
  case longest =>
    apply BitVec.eq_of_toNat_eq
    rw [sum16_toNat, sum_summedOctets_of_all_ff (Nat.le_refl 255)]
    rfl

/-! ### `decode` (R51 to R53) -/

/-- Settles O20: `decode` checks the length and nothing else before it answers. -/
theorem decodeRefusesOtherLengths : Obligations.DecodeRefusesOtherLengths := by
  intro raw
  unfold decodeRaw
  split
  · next h => exact ⟨nofun, fun hneg => absurd h hneg⟩
  · next h => exact ⟨fun _ => h, fun _ => rfl⟩

/-- The fields of a frame that is made of these operands, its checksum included (R37). -/
def frameFields (src dst : Half) (ctrl func : Byte) (payload : List Byte) : FrameFields where
  src := src
  dst := dst
  ctrl := ctrl
  func := func
  len := lengthOctet payload
  payload := payload
  cs := sum16 (summedOctets src dst ctrl func payload)

section
variable (src dst : Half) (ctrl func : Byte) {payload : List Byte} (h : payload.length ≤ lenMax)
include h

/-- The fields of an encoded frame, read off its raw octets (R51, R53). -/
theorem rawFields_wireFrame :
    rawFields ((wireFrame src dst ctrl func payload).drop 2) = frameFields src dst ctrl func payload := by
  have hlen : rawOctet ((wireFrame src dst ctrl func payload).drop 2) 6 = lengthOctet payload := rfl
  have hsrc : rawField ((wireFrame src dst ctrl func payload).drop 2) 0 = src := be16_hi_lo src
  have hdst : rawField ((wireFrame src dst ctrl func payload).drop 2) 2 = dst := be16_hi_lo dst
  have hcs : rawField ((wireFrame src dst ctrl func payload).drop 2) (7 + payload.length) =
      sum16 (summedOctets src dst ctrl func payload) := by
    rw [← wireFrame_take_summed, ← wireFrame_rawField_checksum,
      show 9 + payload.length = 7 + payload.length + 2 by omega]
    rfl
  have hpayload : ((wireFrame src dst ctrl func payload).drop 9).take payload.length = payload :=
    wireFrame_payload src dst ctrl func payload
  rw [rawFields, hlen, lengthOctet_toNat h, hsrc, hdst, hdrLen, hcs, List.drop_drop, hpayload]
  rfl

/-- `decode` of an encoded frame without its sync octets gives its fields back (R53). -/
theorem decodeRaw_wireFrame :
    decodeRaw ((wireFrame src dst ctrl func payload).drop 2) = some (.ok (frameFields src dst ctrl func payload)) := by
  have hlen : rawOctet ((wireFrame src dst ctrl func payload).drop 2) 6 = lengthOctet payload := rfl
  have hsum : checksumRaw ((wireFrame src dst ctrl func payload).drop 2) =
      sum16 (summedOctets src dst ctrl func payload) :=
    (checksumWire_sync_cons _).symm.trans (checksumWire_wireFrame src dst ctrl func h)
  have hcs : (frameFields src dst ctrl func payload).cs = sum16 (summedOctets src dst ctrl func payload) := rfl
  rw [decodeRaw_of_length, validate, rawFields_wireFrame src dst ctrl func h, hsum, if_neg (not_not.mpr hcs)]
  rw [List.length_drop, wireFrame_length, hlen, lengthOctet_toNat h]
  omega

end

/-- Settles O24: what ENCODE transmits is a wire frame, and `decode` gives its fields back. -/
theorem decodeOfEncodedFrame : Obligations.DecodeOfEncodedFrame := by
  intro s t dst ctrl func payload h
  obtain ⟨hfits, rfl⟩ := encodeFrame_next h
  rw [State.output_tx, wireFrame_take_summed]
  exact decodeRaw_wireFrame s.params.masterId dst ctrl func hfits

/-! ### What is transmitted (R50, R56) -/

/-- A transmission writes the outputs and nothing else. -/
theorem State.quiet_output_eq (s : State) (w : List Byte) :
    s.quiet.output w = { s with ev := .noEvent, tx := w, txLen := some (BitVec.ofNat 9 w.length) } := rfl

/-- Settles O22: the octets before the checksum are those of `summedOctets`. -/
theorem encodeTransmitsTheFrame : Obligations.EncodeTransmitsTheFrame := by
  intro s dst ctrl func payload hfits f
  have hf : summedOctets s.params.masterId dst ctrl func payload = f := summedOctets_eq ..
  have hw : wireFrame s.params.masterId dst ctrl func payload = f ++ [hiOctet (sum16 f), loOctet (sum16 f)] := by
    rw [wireFrame, hf]
    rfl
  rw [exec_encode_of_fits hfits, State.quiet_output_eq, wireFrame_length, hw]

/-- The checksum of a frame, field by field. -/
theorem sum16_summedOctets (src dst : Half) (ctrl func : Byte) (payload : List Byte) :
    sum16 (summedOctets src dst ctrl func payload) = BitVec.ofNat 16
      (0xFF + (hiOctet src).toNat + (loOctet src).toNat + (hiOctet dst).toNat + (loOctet dst).toNat + ctrl.toNat +
        func.toNat + (lengthOctet payload).toNat + (payload.map BitVec.toNat).sum) :=
  congrArg (BitVec.ofNat 16) (sum_summedOctets src dst ctrl func payload)

/-- Settles O25: each kind transmits its wire frame, whose checksum is summed field by field. -/
theorem outboundKindsTransmitTheirFrames : Obligations.OutboundKindsTransmitTheirFrames := by
  intro s Mh Ml cD
  refine ⟨?discovery, ?allocate, ?information⟩
  case discovery =>
    have hc : sum16 (summedOctets s.params.masterId 0 0x00 0x00 []) = cD := sum16_summedOctets ..
    rw [exec_discovery, State.quiet_output_eq, wireFrame, hc]
    rfl
  case allocate =>
    intro serial a hserial c
    have hlen : lengthOctet (serial ++ [a]) = 0x0B := by simp [lengthOctet, hserial]
    have hc : sum16 (summedOctets s.params.masterId 0 0x00 0x01 (serial ++ [a])) = c := by
      rw [sum16_summedOctets, hlen, List.map_append, List.sum_append]
      exact congrArg (BitVec.ofNat 16) (Nat.add_assoc _ _ _).symm
    rw [exec_allocateAddress (serialFits_iff.mpr hserial), State.quiet_output_eq, wireFrame_length, wireFrame, hc,
      summedOctets_eq, hlen, List.length_append, hserial]
    simp [octets16, Mh, Ml]
  case information =>
    intro A c
    have hc : sum16 (summedOctets s.params.masterId A 0x01 0x02 []) = c := sum16_summedOctets ..
    rw [exec_informationRequest, State.quiet_output_eq, wireFrame, hc]
    rfl

/-! ### A program of ENCODEs (R35) -/

/-- An observed command contributes its step's event and frame. -/
theorem observe_of_step {s t : State} {item : HostItem} {rest : List HostItem} {k : Nat}
    (hq : s.inbox = item :: rest) (h : step s = .next t) : observe (k + 1) s = (t.ev, t.tx) :: observe k t := by
  simp [observe, hq, h]

/-- The host observes the frames of the ENCODEs that it presents, in order. -/
theorem observe_encodes (cmds : List (Half × Byte × Byte × List Byte)) (hfits : ∀ c ∈ cmds, c.2.2.2.length ≤ lenMax)
    (s : State) (hq : s.inbox = cmds.map fun c => encode (.encode c.1 c.2.1 c.2.2.1 c.2.2.2)) :
    observe cmds.length s =
      cmds.map fun c => (.noEvent, wireFrame s.params.masterId c.1 c.2.1 c.2.2.1 c.2.2.2) := by
  induction cmds generalizing s with
  | nil => rfl
  | cons c cmds ih =>
    obtain ⟨hc, hcmds⟩ := List.forall_mem_cons.mp hfits
    have hstep := step_of_decode_ok hq (decode_encode_encode hc c.1 c.2.1 c.2.2.1)
    rw [exec_encode_of_fits hc] at hstep
    rw [List.length_cons, observe_of_step hq hstep, ih hcmds _ rfl]
    rfl

/-- Settles O26: by induction on the commands. -/
theorem framesLeaveInStepOrder : Obligations.FramesLeaveInStepOrder :=
  fun s cmds hfits => observe_encodes cmds hfits (s.present _) rfl

end Sys2Proof.Machine
end

section
/-! One step of the assembler, forwards (R57 to R65): the whole next state of TICK, BYTE, RESET and the inbound kinds in
each state, and the stops outside the invariant (R30, R52). -/

namespace Sys2Proof.Machine

/-! ### TICK (R65) -/

theorem exec_tick_of_not_stalled {s : State} {now : Nat} (h : s.stalled now = false) :
    exec (.tick now) s = .next s.quiet :=
  congrArg Host.Outcome.next (State.stallCheck_of_not_stalled (s := s.quiet) h)

theorem exec_tick_of_stalled {s : State} {now : Nat} (h : s.stalled now = true) :
    exec (.tick now) s = .next (s.quiet.abort (.frameTimeout s.st s.idx)) :=
  congrArg Host.Outcome.next (State.stallCheck_of_stalled (s := s.quiet) h)

/-- Settles O27: the frame is stalled or it is not. -/
theorem tickRunsTheStallCheck : Obligations.TickRunsTheStallCheck :=
  fun _ _ => ⟨fun h => exec_tick_of_not_stalled (State.stalled_eq_false.mpr h),
    fun hs h => exec_tick_of_stalled (State.stalled_iff.mpr ⟨hs, h⟩)⟩

/-! ### BYTE in WFS (R59) -/

theorem byteStep_wfs {b : Byte} {now : Nat} {s : State} (h : s.st = .wfs) :
    byteStep b now s = .next (byteWFS b now s.quiet) :=
  (byteStep_of_not_stalled (State.stalled_wfs h now)).trans (byteIn_wfs h)

/-- The second octet of `55 AA` starts a header. -/
theorem byteStep_wfs_of_sync {now : Nat} {s : State} (h : s.st = .wfs) (hsp : s.sp = true) :
    byteStep sync1 now s = .next (s.quiet.enterRH now) := by
  rcases byteWFS_cases sync1 now s.quiet with ⟨-, -, hw⟩ | ⟨hneg, -⟩
  · rw [byteStep_wfs h, hw]
  · exact absurd ⟨hsp, rfl⟩ hneg

/-- Any other octet is remembered as a possible first sync octet. -/
theorem byteStep_wfs_of_not_sync {b : Byte} {now : Nat} {s : State} (h : s.st = .wfs)
    (hb : ¬(s.sp = true ∧ b = sync1)) : byteStep b now s = .next (s.quiet.setSp (partialSync b)) := by
  rcases byteWFS_cases b now s.quiet with ⟨hsp, hsync, -⟩ | ⟨-, hw⟩
  · exact absurd ⟨hsp, hsync⟩ hb
  · rw [byteStep_wfs h, hw]

/-- The first sync octet in WFS, after whatever octet. -/
theorem byteStep_sync0_wfs {now : Nat} {s : State} (h : s.st = .wfs) :
    byteStep sync0 now s = .next (s.quiet.setSp true) := by
  have hne : sync0 ≠ sync1 := by decide
  exact byteStep_wfs_of_not_sync h fun hb => hne hb.2

/-- Settles O28: the octet completes the sync pattern or it does not. -/
theorem byteHuntsForSync : Obligations.ByteHuntsForSync := by
  intro s b now h
  refine ⟨?sync, fun hb => byteStep_wfs_of_not_sync h hb⟩
  case sync =>
    rintro hsp rfl
    exact byteStep_wfs_of_sync h hsp

/-- Settles O29: each 55 leaves a partial match, the TICK leaves it alone, and AA completes it. -/
theorem syncWindowSlides : Obligations.SyncWindowSlides := by
  intro s n0 n1 n2 n3 h
  exact ⟨_, _, _, _, byteStep_sync0_wfs h, byteStep_sync0_wfs h, exec_tick_of_not_stalled (State.stalled_wfs h n2),
    byteStep_wfs_of_sync h rfl, rfl, rfl, rfl, rfl, rfl⟩

/-! ### BYTE in RH (R60, R61) -/

theorem byteStep_rh {b : Byte} {now : Nat} {s : State} (hs : s.st = .rh) (hw : s.stalled now = false)
    (hi : s.idx.toNat < s.params.bufCap) :
    byteStep b now s = .next
      (if s.idx + 1#9 = 7#9 then lengthCheck b (s.quiet.accept b now) else s.quiet.accept b now) := by
  rw [byteStep_of_not_stalled hw, byteIn_rh (s := s.quiet) hs]
  exact byteRH_of_lt hi

/-- A header octet has an element to stand in, because `BUF_CAP` is at least 9 (R6). -/
theorem idx_lt_bufCap_of_le_six {s : State} (h : s.idx.toNat ≤ 6) : s.idx.toNat < s.params.bufCap :=
  Nat.lt_of_lt_of_le (by omega) s.params.bufCap_ge

theorem idx_succ_eq_seven_iff {x : BitVec 9} : x + 1#9 = 7#9 ↔ x.toNat = 6 := by bv_omega

/-- A header octet that is not the seventh is stored (R60). -/
theorem byteStep_rh_of_lt_six {b : Byte} {now : Nat} {s : State} (hs : s.st = .rh) (hw : s.stalled now = false)
    (hi : s.idx.toNat < 6) : byteStep b now s = .next (s.quiet.accept b now) := by
  rw [byteStep_rh hs hw (idx_lt_bufCap_of_le_six (by omega)), if_neg]
  rw [idx_succ_eq_seven_iff]
  omega

/-- The seventh header octet is stored and goes to the length check (R60). -/
theorem byteStep_rh_of_eq_six {b : Byte} {now : Nat} {s : State} (hs : s.st = .rh) (hw : s.stalled now = false)
    (hi : s.idx.toNat = 6) : byteStep b now s = .next (lengthCheck b (s.quiet.accept b now)) := by
  rw [byteStep_rh hs hw (idx_lt_bufCap_of_le_six (by omega)), if_pos (idx_succ_eq_seven_iff.mpr hi)]

theorem lengthCheck_of_gt {len : Byte} {s : State} (h : s.params.bufCap < 9 + len.toNat) :
    lengthCheck len s = s.abort (.bufferOverflowRisk len) :=
  if_pos h

theorem lengthCheck_of_le {len : Byte} {s : State} (h : 9 + len.toNat ≤ s.params.bufCap) :
    lengthCheck len s = s.enterRP len :=
  if_neg (not_lt.mpr h)

/-- Settles O30: the octet is stored in time, and the seventh goes to the length check; late, the frame is aborted. -/
theorem byteAccumulatesHeader : Obligations.ByteAccumulatesHeader := by
  intro s b now hs hi s1
  refine ⟨fun htime => ?intime, fun htime => ?late⟩
  case intime =>
    have hw := State.stalled_of_le htime
    exact ⟨fun h => byteStep_rh_of_lt_six hs hw h, fun h => byteStep_rh_of_eq_six hs hw h,
      s.quiet.accept_bufAt b now⟩
  case late =>
    have hw := State.stalled_iff.mpr ⟨by simp [hs], htime⟩
    have htick := exec_tick_of_stalled hw
    have hbyte := byteStep_of_stalled (b := b) hw
    rw [hs] at htick hbyte
    exact ⟨⟨_, hbyte, rfl, rfl⟩, ⟨_, htick, rfl, rfl⟩⟩

/-- A declared length fits the buffer exactly when it is at most PAYLOAD_MAX (R6). -/
theorem fits_iff_le_payloadMax (p : Params) (len : Byte) : 9 + len.toNat ≤ p.bufCap ↔ len.toNat ≤ p.payloadMax := by
  have hcap := p.bufCap_ge
  have hlen := len.isLt
  unfold Params.payloadMax lenMax
  omega

/-- Settles O31: the length check on the state with the seventh octet stored. -/
theorem acceptedLengthsArePayloadMax : Obligations.AcceptedLengthsArePayloadMax := by
  intro s len now hs hidx htime s1
  have hacc : s.quiet.accept len now = s1 := by
    rw [State.accept, State.quiet_idx, hidx]
    rfl
  have hstep : exec (.byte len now) s = .next (lengthCheck len s1) := by
    rw [← hacc]
    exact byteStep_rh_of_eq_six hs (State.stalled_of_le htime) (by rw [hidx]; rfl)
  refine ⟨fun hgt => ?_, fun hle => ?_, fits_iff_le_payloadMax s.params len⟩
  · rw [hstep, lengthCheck_of_gt (s := s1) hgt]
    rfl
  · rw [hstep, lengthCheck_of_le (s := s1) hle]
    rfl

/-! ### BYTE in RP (R62, R63) -/

theorem byteStep_rp {b : Byte} {now : Nat} {s : State} (hs : s.st = .rp) (hw : s.stalled now = false)
    (hi : s.idx.toNat < s.params.bufCap) :
    byteStep b now s =
      if s.rem - 1#9 = 0#9 then complete (s.quiet.accept b now).countDown
      else .next (s.quiet.accept b now).countDown := by
  rw [byteStep_of_not_stalled hw, byteIn_rp (s := s.quiet) hs]
  exact byteRP_of_lt hi

/-- A payload or checksum octet that is not the last is stored and counted (R62). -/
theorem byteStep_rp_of_ne_one {b : Byte} {now : Nat} {s : State} (hs : s.st = .rp) (hw : s.stalled now = false)
    (hi : s.idx.toNat < s.params.bufCap) (hr : s.rem ≠ 1#9) :
    byteStep b now s = .next (s.quiet.accept b now).countDown := by
  rw [byteStep_rp hs hw hi, if_neg fun h0 => hr (rem_eq_one h0)]

/-- The last octet is stored and the frame completed (R62). -/
theorem byteStep_rp_of_eq_one {b : Byte} {now : Nat} {s : State} (hs : s.st = .rp) (hw : s.stalled now = false)
    (hi : s.idx.toNat < s.params.bufCap) (hr : s.rem = 1#9) :
    byteStep b now s = complete (s.quiet.accept b now).countDown := by
  rw [byteStep_rp hs hw hi, if_pos (by rw [hr]; rfl)]

theorem rem_pred_toNat {x : BitVec 9} (h : 1 ≤ x.toNat) : (x - 1#9).toNat = x.toNat - 1 := by bv_omega

/-- Settles O32: the countdown is at its end or it is not. -/
theorem byteCountsDownPayload : Obligations.ByteCountsDownPayload := by
  intro s b now hs htime hi hr s1
  have hw := State.stalled_of_le htime
  exact ⟨rem_pred_toNat hr, fun h => byteStep_rp_of_ne_one hs hw hi h, fun h => byteStep_rp_of_eq_one hs hw hi h,
    s.quiet.accept_bufAt b now⟩

/-- What the invariant says in RP (R27). -/
theorem inv_rp {s : State} (h : s.Inv) (hs : s.st = .rp) :
    7 ≤ s.idx.toNat ∧ s.idx.toNat ≤ 8 + s.declaredLen ∧ s.rem.toNat = 9 + s.declaredLen - s.idx.toNat ∧
    9 + s.declaredLen ≤ s.params.bufCap := by
  obtain ⟨-, -, hrp⟩ := h
  obtain ⟨⟨hlo, hhi⟩, hrem, -, hcap⟩ := hrp hs
  exact ⟨hlo, hhi, hrem, hcap⟩

/-- In RP the octet to come has an element to stand in (R30). -/
theorem inv_rp_idx_lt {s : State} (h : s.Inv) (hs : s.st = .rp) : s.idx.toNat < s.params.bufCap := by
  obtain ⟨-, hhi, -, hcap⟩ := inv_rp h hs
  omega

theorem declaredLen_lt (s : State) : s.declaredLen < 256 := (s.bufAt 6).isLt

/-- An octet accepted at another index than 6 leaves the declared length (R29). -/
theorem accept_declaredLen {s : State} {b : Byte} {now : Nat} (h : s.idx.toNat ≠ 6) :
    (s.accept b now).declaredLen = s.declaredLen := by
  rw [State.declaredLen, State.accept_bufAt, if_neg (Ne.symm h)]
  rfl

theorem idx_succ_toNat {x : BitVec 9} (h : x.toNat ≤ 263) : (x + 1#9).toNat = x.toNat + 1 := by bv_omega

/-- The two checksum octets of a frame of `L` payload octets in the buffer (R51). -/
def State.receivedSum (s : State) (L : Nat) : Half := be16 (s.bufAt (7 + L)) (s.bufAt (8 + L))

/-- The sum of the other octets of the frame, and of the sync octets before them (R48). -/
def State.computedSum (s : State) (L : Nat) : Half := sum16 ([0x55#8, 0xAA#8] ++ s.bufSlice 0 (7 + L))

/-- The fields of the frame (R51). -/
def State.bufferedFields (s : State) (L : Nat) : FrameFields where
  src := s.bufField 0
  dst := s.bufField 2
  ctrl := s.bufAt 4
  func := s.bufAt 5
  len := s.bufAt 6
  payload := s.bufSlice 7 L
  cs := s.receivedSum L

/-- The event of the completion of the frame: the fields, or the two sums where they differ (R63). -/
def State.verdict (s : State) (L : Nat) : Event :=
  if s.receivedSum L = s.computedSum L then .frame (s.bufferedFields L)
  else .checksumMismatch (s.receivedSum L) (s.computedSum L)

theorem State.verdict_of_eq {s : State} {L : Nat} (h : s.receivedSum L = s.computedSum L) :
    s.verdict L = .frame (s.bufferedFields L) :=
  if_pos h

theorem State.verdict_of_ne {s : State} {L : Nat} (h : s.receivedSum L ≠ s.computedSum L) :
    s.verdict L = .checksumMismatch (s.receivedSum L) (s.computedSum L) :=
  if_neg h

/-- A whole frame in the buffer is completed with its verdict (R63). -/
theorem complete_eq_verdict {s : State} {L : Nat} (hL : s.declaredLen = L) (h : s.idx.toNat = 9 + L) :
    complete s = .next (s.abort (s.verdict L)) := by
  have hlen : s.idx.toNat = hdrLen + csLen + (s.bufAt 6).toNat := h.trans (congrArg (9 + ·) hL.symm)
  have hv : validate s.raw = if s.receivedSum L = s.computedSum L then .ok (s.bufferedFields L)
      else .mismatch (s.receivedSum L) (s.computedSum L) := validate_raw hL h
  rw [complete_of_length hlen, hv]
  by_cases hsum : s.receivedSum L = s.computedSum L
  · rw [if_pos hsum, State.verdict_of_eq hsum]
  · rw [if_neg hsum, State.verdict_of_ne hsum]

/-- The last octet of a frame is stored and the frame completed with its verdict (R62, R63). -/
theorem byteStep_last {b : Byte} {now : Nat} {s : State} (hinv : s.Inv) (hs : s.st = .rp) (hr : s.rem = 1#9)
    (hw : s.stalled now = false) :
    byteStep b now s = .next ((s.quiet.accept b now).countDown.abort
      ((s.quiet.accept b now).countDown.verdict s.declaredLen)) := by
  obtain ⟨hlo, hhi, hrem, hcap⟩ := inv_rp hinv hs
  have hlen := declaredLen_lt s
  rw [hr] at hrem
  have hidx : s.idx.toNat = 8 + s.declaredLen := by
    simp only [BitVec.toNat_ofNat] at hrem
    omega
  have hdecl : (s.quiet.accept b now).declaredLen = s.declaredLen :=
    accept_declaredLen (s := s.quiet) (by rw [State.quiet_idx]; omega)
  have hfull : (s.idx + 1#9).toNat = 9 + s.declaredLen := by
    rw [idx_succ_toNat] <;> omega
  rw [byteStep_rp_of_eq_one hs hw (inv_rp_idx_lt hinv hs) hr]
  exact complete_eq_verdict (s := (s.quiet.accept b now).countDown) hdecl hfull

/-- Settles O33: the verdict on the stored frame. -/
theorem lastOctetCompletesTheFrame : Obligations.LastOctetCompletesTheFrame := by
  intro s b now hinv hs hr htime L s1 cCalc cRx
  have hrem : s.rem - 1#9 = 0#9 := by
    rw [hr]
    rfl
  have hs1 : (s.quiet.accept b now).countDown.abort .noEvent = s1 := by
    rw [State.countDown, State.accept_rem, State.quiet_rem, hrem]
    rfl
  have hstep := byteStep_last (b := b) hinv hs hr (State.stalled_of_le htime)
  refine ⟨fun heq => ?_, fun hne => ?_⟩
  · rw [exec_byte, hstep, State.verdict_of_eq (s := (s.quiet.accept b now).countDown) heq]
    exact congrArg (fun u : State => Host.Outcome.next (u.raise _)) hs1
  · rw [exec_byte, hstep, State.verdict_of_ne (s := (s.quiet.accept b now).countDown) hne]
    exact congrArg (fun u : State => Host.Outcome.next (u.raise _)) hs1

/-- Settles O34: a late octet. -/
theorem lateOctetAbortsThenHunts : Obligations.LateOctetAbortsThenHunts :=
  fun _ _ _ hs htime => byteStep_of_stalled (State.stalled_iff.mpr ⟨hs, htime⟩)

/-! ### The inbound kinds and RESET (R46, R86) -/

/-- The first octet of an inbound kind in WFS is a possible first sync octet. -/
theorem byteStep_presentTail_wfs {s : State} (h : s.st = .wfs) (src dst : Half) (ctrl func : Byte) (payload : List Byte)
    (t0 d : Nat) :
    byteStep sync0 t0 (s.presentTail src dst ctrl func payload t0 d) =
      .next ((s.presentTail src dst ctrl func payload t0 d).quiet.setSp true) :=
  byteStep_sync0_wfs h

/-- Settles O37: each kind is the BYTE step of its first octet. -/
theorem inboundKindsPresentTheirOctets : Obligations.InboundKindsPresentTheirOctets := by
  intro s src dst payload t0 d after
  refine ⟨fun h => ?request, fun h => ?confirmation, fun hmin hmax => ?response⟩
  case request =>
    have hx := exec_registrationRequest (serialFits_iff.mpr h) src dst t0 d s
    exact ⟨hx, fun hs => hx.trans (byteStep_presentTail_wfs hs src dst 0x00 0x80 payload t0 d)⟩
  case confirmation =>
    have hx := exec_registrationConfirmation (payloadFits_iff.mpr h) src dst t0 d s
    exact ⟨hx, fun hs => hx.trans (byteStep_presentTail_wfs hs src dst 0x00 0x81 payload t0 d)⟩
  case response =>
    have hx := exec_informationResponse (telemetryFits_iff.mpr ⟨hmin, hmax⟩) src dst t0 d s
    exact ⟨hx, fun hs => hx.trans (byteStep_presentTail_wfs hs src dst 0x01 0x81 payload t0 d)⟩

/-- Settles O48: RESET leaves no partial match, so that AA starts nothing. -/
theorem resetClearsTheAssembler : Obligations.ResetClearsTheAssembler := by
  intro s
  have hunt (now : Nat) : byteStep sync1 now s.quiet.goWFS.forget =
      .next (s.quiet.goWFS.forget.quiet.setSp (partialSync sync1)) :=
    byteStep_wfs_of_not_sync rfl (by simp)
  exact ⟨_, exec_reset s, rfl, rfl, rfl, rfl, rfl, rfl, rfl, fun now => ⟨_, hunt now, rfl, rfl, rfl⟩⟩

/-! ### Stops outside the invariant (R30, R52) -/

/-- An octet with no element to stand in faults (the model's entry 10). -/
theorem storeOctet_of_ge {b : Byte} {now : Nat} {s : State} {k : State → Result}
    (h : s.params.bufCap ≤ s.idx.toNat) : storeOctet b now s k = .fault (.bufferOverrun s.idx.toNat) :=
  if_neg (not_lt.mpr h)

theorem byteStep_of_overrun {b : Byte} {now : Nat} {s : State} (hs : s.st ≠ .wfs) (hw : s.stalled now = false)
    (h : s.params.bufCap ≤ s.idx.toNat) : byteStep b now s = .fault (.bufferOverrun s.idx.toNat) := by
  rw [byteStep_of_not_stalled hw]
  cases hst : s.st with
  | wfs => exact absurd hst hs
  | rh => exact (byteIn_rh (s := s.quiet) hst).trans (storeOctet_of_ge (s := s.quiet) h)
  | rp => exact (byteIn_rp (s := s.quiet) hst).trans (storeOctet_of_ge (s := s.quiet) h)

/-- The completion of a raw frame of another length is refused, where there is a length octet and where there is none
(R52; the model's entry 11). -/
theorem complete_of_other_length {s : State} (h : s.idx.toNat ≠ 9 + (s.bufAt 6).toNat) :
    complete s = .refused (.rawFrameLength s.idx.toNat) := by
  have hnone : decodeRaw s.raw = none := by
    rw [decodeRefusesOtherLengths, State.raw_length]
    rintro ⟨hlen, heq⟩
    have h6 : rawOctet s.raw 6 = s.bufAt 6 := s.rawOctet_raw hlen
    exact h (heq.trans (congrArg (fun o : Byte => 9 + o.toNat) h6))
  rw [complete, hnone, State.raw_length]

/-- Settles O58: the store faults, or the completion is refused. -/
theorem stopsOutsideTheInvariant : Obligations.StopsOutsideTheInvariant := by
  intro s b now htime
  have hw := State.stalled_of_le htime
  refine ⟨fun hs hcap => byteStep_of_overrun hs hw hcap, ?_⟩
  intro hs hi hr s1 hlen
  exact (byteStep_rp_of_eq_one hs hw hi hr).trans
    (complete_of_other_length (s := (s.quiet.accept b now).countDown) hlen)

/-! ### The clock (R92, R93) -/

/-- A clock that is `d` behind is seen as ahead by the rest of the wrap period (R93). -/
theorem elapsed_of_behind {clockW d : Nat} (now : Nat) (h0 : 0 < d) (hd : d < 2 ^ clockW) :
    elapsed clockW now (now + d) = 2 ^ clockW - d := by
  have hdiff : (now : Int) - (now + d : Nat) = ((2 ^ clockW - d : Nat) : Int) - (2 ^ clockW : Nat) := by omega
  rw [elapsed, hdiff, Int.sub_emod_right, Int.emod_eq_of_lt] <;> omega

/-- A gap is seen mod `2 ^ CLOCK_W` (R92). -/
theorem elapsed_add_left (clockW t gap : Nat) : elapsed clockW (t + gap) t = gap % 2 ^ clockW := by
  rw [elapsed, Nat.cast_add, add_sub_cancel_left]
  exact Int.toNat_natCast _

/-- Settles O49: the stamp is the clock's value `d` later, so that the elapsed time is the rest of the wrap period. -/
theorem backwardsClockIsSeenAsAhead : Obligations.BackwardsClockIsSeenAsAhead := by
  intro s now d _ hs h0 hd htl
  have hel : elapsed s.params.clockW now s.tl = 2 ^ s.params.clockW - d := by
    rw [← htl]
    exact (elapsed_clockPort ..).trans (elapsed_of_behind now h0 hd)
  refine ⟨hel, fun hlate => ?_, fun hin => ?_⟩
  · exact ⟨_, exec_tick_of_stalled (State.stalled_iff.mpr ⟨hs, by rw [hel]; exact hlate⟩), rfl⟩
  · exact ⟨_, exec_tick_of_not_stalled (State.stalled_of_le (by rw [hel]; exact hin)), rfl, rfl⟩

/-- Settles O50: the gap to the first step after the window is less than a wrap period, so that it is seen in full. -/
theorem stallIsSeenByASteppingHost : Obligations.StallIsSeenByASteppingHost := by
  refine ⟨elapsed_add_left, ?_⟩
  intro s T T1 T2 hs htl h1 h1w h2 h2w
  have hM : 2 ^ 10 ≤ 2 ^ s.params.clockW := Nat.pow_le_pow_right (by omega) s.params.clockW_ge
  have hel : elapsed s.params.clockW T2 s.tl = T2 - T := by
    rw [htl]
    exact (elapsed_clockPort ..).trans (elapsed_of_le (by omega) (by omega))
  have hlate : s.stalled T2 = true := State.stalled_iff.mpr ⟨hs, by rw [hel, stallMs]; omega⟩
  exact ⟨⟨_, exec_tick_of_stalled hlate, rfl, rfl⟩, fun b => ⟨_, byteStep_of_stalled hlate, rfl, rfl⟩⟩

end Sys2Proof.Machine
end

section
/-! What the rows of R69's transition table say of every instruction: what is stored and when the time stamp moves, when
each event arises, and how the assembler comes to a header and out of a frame (R64 to R73). -/

namespace Sys2Proof.Machine

/-! ### Rows and BYTE steps -/

/-- A state that follows one of the rows is what the BYTE step answers: the rows say all that a BYTE step does. -/
theorem OctetStep.byteStep_eq {b : Byte} {now : Nat} {s t : State} (h : OctetStep b now s t) :
    byteStep b now s = .next t := by
  cases h with
  | late hw ht => rw [ht, byteStep_of_stalled hw]
  | sync hs hsp hb ht => rw [ht, hb, byteStep_wfs_of_sync hs hsp]
  | hunt hs hb ht => rw [ht, byteStep_wfs_of_not_sync hs hb]
  | header hs hw hi h7 ht => rw [ht, byteStep_rh hs hw hi, if_neg h7]
  | reject hs hw hi h7 hl ht =>
    rw [ht, byteStep_rh hs hw hi, if_pos h7, lengthCheck_of_gt (s := s.quiet.accept b now) hl]
  | declare hs hw hi h7 hl ht =>
    rw [ht, byteStep_rh hs hw hi, if_pos h7, lengthCheck_of_le (s := s.quiet.accept b now) hl]
  | payload hs hw hi hr ht => rw [ht, byteStep_rp hs hw hi, if_neg hr]
  | last hs hw hi hr ht => rw [byteStep_rp hs hw hi, if_pos hr, ht]

/-- A BYTE step has one answer. -/
theorem OctetStep.eq_of_byteStep {b : Byte} {now : Nat} {s t u : State} (h : OctetStep b now s t)
    (hu : byteStep b now s = .next u) : t = u :=
  Host.Outcome.next.inj (h.byteStep_eq.symm.trans hu)

section
variable {b : Byte} {now : Nat} {s t : State}

/-! ### The stores and the time stamp (R30, R67) -/

/-- A stalled frame is aborted and the octet examined in WFS. -/
theorem OctetStep.eq_of_stalled (h : OctetStep b now s t) (hw : s.stalled now = true) :
    t = (s.quiet.abort (.frameTimeout s.st s.idx)).setSp (partialSync b) :=
  h.eq_of_byteStep (byteStep_of_stalled hw)

/-- An octet taken in WFS, or after an abort, stores nothing. -/
theorem OctetStep.stores_nothing (h : OctetStep b now s t) (hs : s.st = .wfs ∨ s.stalled now = true) :
    t.buf = s.buf ∧ t.rem = s.rem := by
  by_cases hw : s.stalled now = true
  · rw [h.eq_of_stalled hw]
    exact ⟨rfl, rfl⟩
  · have ht := h.eq_of_byteStep (byteStep_wfs (hs.resolve_right hw))
    rcases byteWFS_cases b now s.quiet with ⟨-, -, hb⟩ | ⟨-, hb⟩ <;> rw [hb] at ht <;> rw [ht]
    · exact ⟨rfl, rfl⟩
    · exact ⟨rfl, rfl⟩

/-- An octet taken in RH or RP in time is stored at the old index; the index and the time stamp move on. -/
theorem OctetStep.accepts (h : OctetStep b now s t) (hs : s.st ≠ .wfs) (hw : s.stalled now = false) :
    t.buf = s.buf.write s.idx.toNat b ∧ t.idx = s.idx + 1#9 ∧ t.tl = clockPort s.params.clockW now ∧
    s.idx.toNat < s.params.bufCap := by
  cases h with
  | late hw' _ => rw [hw] at hw'; cases hw'
  | sync hs' _ _ _ => exact absurd hs' hs
  | hunt hs' _ _ => exact absurd hs' hs
  | header _ _ hi _ ht => subst ht; exact ⟨rfl, rfl, rfl, hi⟩
  | reject _ _ hi _ _ ht => subst ht; exact ⟨rfl, rfl, rfl, hi⟩
  | declare _ _ hi _ _ ht => subst ht; exact ⟨rfl, rfl, rfl, hi⟩
  | payload _ _ hi _ ht => subst ht; exact ⟨rfl, rfl, rfl, hi⟩
  | last _ _ hi _ ht =>
    obtain ⟨e, rfl⟩ := complete_eq_abort ht
    exact ⟨rfl, rfl, rfl, hi⟩

/-- A header octet before the seventh leaves the state of the assembler and the countdown. -/
theorem OctetStep.eq_of_header (h : OctetStep b now s t) (hs : s.st = .rh) (hw : s.stalled now = false)
    (h6 : s.idx ≠ 6#9) : t = s.quiet.accept b now := by
  have hne : ¬s.idx + 1#9 = 7#9 := fun h7 => h6 (idx_eq_six h7)
  have hi : s.idx.toNat < s.params.bufCap := (h.accepts (by simp [hs]) hw).2.2.2
  exact h.eq_of_byteStep (by rw [byteStep_rh hs hw hi, if_neg hne])

/-- The octet of a step makes progress: it completes the sync pattern, or it is accepted in RH or RP (R67). -/
def MakesProgress (b : Byte) (now : Nat) (s : State) : Prop :=
  (s.st = .wfs ∧ s.sp = true ∧ b = 0xAA#8) ∨ (s.st ≠ .wfs ∧ elapsed s.params.clockW now s.tl ≤ 500)

/-- Progress moves the time stamp to the clock (R67). -/
theorem OctetStep.tl_of_progress (h : OctetStep b now s t) (hp : MakesProgress b now s) :
    t.tl = clockPort s.params.clockW now := by
  rcases hp with ⟨hs, hsp, rfl⟩ | ⟨hs, htime⟩
  · rw [h.eq_of_byteStep (byteStep_wfs_of_sync hs hsp)]
    rfl
  · exact (h.accepts hs (State.stalled_of_le htime)).2.2.1

/-- Without progress the time stamp stays (R67). -/
theorem OctetStep.tl_of_no_progress (h : OctetStep b now s t) (hp : ¬MakesProgress b now s) : t.tl = s.tl := by
  by_cases hs : s.st = .wfs
  · have hb : ¬(s.sp = true ∧ b = sync1) := fun hb => hp (.inl ⟨hs, hb⟩)
    rw [h.eq_of_byteStep (byteStep_wfs_of_not_sync hs hb)]
    rfl
  · have hlate : stallMs < elapsed s.params.clockW now s.tl := not_le.mp fun hle => hp (.inr ⟨hs, hle⟩)
    rw [h.eq_of_stalled (State.stalled_iff.mpr ⟨hs, hlate⟩)]
    rfl

/-! ### The events -/

/-- Is the event that of a completion? -/
def Event.isCompletion : Event → Bool
  | .frame _ => true
  | .checksumMismatch _ _ => true
  | .noEvent => false
  | .frameTimeout _ _ => false
  | .bufferOverflowRisk _ => false

/-- FRAME and CHECKSUM_MISMATCH come from the last octet of a frame, accepted in time (R63). -/
theorem OctetStep.of_completion (h : OctetStep b now s t) (hev : t.ev.isCompletion = true) :
    s.st = .rp ∧ s.stalled now = false ∧ s.rem = 1#9 ∧ complete (s.quiet.accept b now).countDown = .next t := by
  cases h with
  | last hs hw _ hr ht => exact ⟨hs, hw, rem_eq_one hr, ht⟩
  | _ => subst t; cases hev

/-- FRAME_TIMEOUT comes from a stalled frame, and names its state and index (R72). -/
theorem OctetStep.of_timeout (h : OctetStep b now s t) {q : AsmState} {o : BitVec 9} (hev : t.ev = .frameTimeout q o) :
    s.stalled now = true ∧ q = s.st ∧ o = s.idx := by
  cases h with
  | late hw ht =>
    subst ht
    cases hev
    exact ⟨hw, rfl, rfl⟩
  | last _ _ _ _ ht => obtain ⟨-, ⟨-, rfl⟩ | ⟨-, rfl⟩⟩ := complete_cases ht <;> cases hev
  | _ => subst t; cases hev

/-- BUFFER_OVERFLOW_RISK comes from a length octet that does not fit (R73). -/
theorem OctetStep.of_overflow (h : OctetStep b now s t) {len : Byte} (hev : t.ev = .bufferOverflowRisk len) :
    b = len ∧ s.st = .rh ∧ s.stalled now = false ∧ s.idx = 6#9 ∧ s.params.bufCap < 9 + len.toNat ∧
    t = (s.quiet.accept b now).abort (.bufferOverflowRisk len) := by
  cases h with
  | reject hs hw _ h7 hl ht =>
    subst ht
    cases hev
    exact ⟨rfl, hs, hw, idx_eq_six h7, hl, rfl⟩
  | last _ _ _ _ ht => obtain ⟨-, ⟨-, rfl⟩ | ⟨-, rfl⟩⟩ := complete_cases ht <;> cases hev
  | _ => subst t; cases hev

/-- A length octet that does not fit raises BUFFER_OVERFLOW_RISK (R73). -/
theorem OctetStep.ev_of_too_long (h : OctetStep b now s t) (hs : s.st = .rh) (hw : s.stalled now = false)
    (h6 : s.idx = 6#9) (hl : s.params.bufCap < 9 + b.toNat) : t.ev = .bufferOverflowRisk b := by
  have hstep := byteStep_rh_of_eq_six (b := b) hs hw (by rw [h6]; rfl)
  rw [lengthCheck_of_gt (s := s.quiet.accept b now) hl] at hstep
  rw [h.eq_of_byteStep hstep]
  rfl

/-! ### The states of the assembler -/

/-- RH is entered by the AA of `55 AA` only (R68). -/
theorem OctetStep.of_enters_rh (h : OctetStep b now s t) (ht : t.st = .rh) (hs : s.st ≠ .rh) :
    s.st = .wfs ∧ s.sp = true ∧ b = sync1 := by
  cases h with
  | late _ ht' => subst ht'; cases ht
  | sync hs' hsp hb _ => exact ⟨hs', hsp, hb⟩
  | hunt hs' _ ht' => subst ht'; rw [← ht] at hs; exact absurd rfl hs
  | header hs' _ _ _ _ => exact absurd hs' hs
  | reject hs' _ _ _ _ _ => exact absurd hs' hs
  | declare hs' _ _ _ _ _ => exact absurd hs' hs
  | payload _ _ _ _ ht' => subst ht'; rw [← ht] at hs; exact absurd rfl hs
  | last _ _ _ _ ht' =>
    obtain ⟨e, rfl⟩ := complete_eq_abort ht'
    cases ht

/-- A frame that ends with a partial match was late, and the octet is 55 (R64, D9). -/
theorem OctetStep.of_leaves_partial (h : OctetStep b now s t) (hs : s.st ≠ .wfs) (ht : t.st = .wfs)
    (hsp : t.sp = true) : s.stalled now = true ∧ b = sync0 := by
  cases h with
  | late hw ht' =>
    subst ht'
    exact ⟨hw, eq_of_beq hsp⟩
  | sync hs' _ _ _ => exact absurd hs' hs
  | hunt hs' _ _ => exact absurd hs' hs
  | header _ _ _ _ ht' => subst ht'; exact absurd ht hs
  | reject _ _ _ _ _ ht' => subst ht'; cases hsp
  | declare _ _ _ _ _ ht' => subst ht'; cases ht
  | payload _ _ _ _ ht' => subst ht'; exact absurd ht hs
  | last _ _ _ _ ht' =>
    obtain ⟨e, rfl⟩ := complete_eq_abort ht'
    cases hsp

end

/-! ### The frame of each instruction -/

/-- The octet and the clock of an instruction that takes an octet are those of its BYTE step. -/
theorem exec_octetStep {i : Instr} {s t : State} {b : Byte} {now : Nat} (hb : octetTaken i = some b)
    (hn : clockUsed i = some now) (h : exec i s = .next t) :
    ∃ q, (i = .byte b now → q = s.inbox) ∧ OctetStep b now (s.present q) t := by
  obtain ⟨q, hq, hx⟩ := exec_octet hb hn h
  exact ⟨q, hq, byteStep_octetStep hx⟩

/-- Settles O35: an octet is accepted at the index, or nothing is stored. -/
theorem byteStoresAtIndexOnly : Obligations.ByteStoresAtIndexOnly := by
  intro i s t b now hb hn h
  obtain ⟨q, hq, hx⟩ := exec_octetStep hb hn h
  obtain ⟨hparams, hdraws, hinbox, htx, htxLen⟩ := hx.frame
  refine ⟨hparams, hdraws, htx, htxLen, fun hi => hinbox.trans (hq hi), fun hs => ?nothing, fun hs htime => ?stored⟩
  case nothing =>
    have hs' : s.st = .wfs ∨ s.stalled now = true := by
      by_cases hst : s.st = .wfs
      · exact .inl hst
      · exact .inr (State.stalled_iff.mpr ⟨hst, hs.resolve_left hst⟩)
    obtain ⟨hbuf, hrem⟩ := hx.stores_nothing hs'
    exact ⟨State.bufAt_congr hbuf hdraws, hrem⟩
  case stored =>
    have hw : s.stalled now = false := State.stalled_of_le htime
    obtain ⟨hbuf, hidx, htl, -⟩ := hx.accepts hs hw
    have hat (a : Nat) : t.bufAt a = if a = s.idx.toNat then b else s.bufAt a :=
      (State.bufAt_congr (s := s.accept b now) hbuf hdraws a).trans (s.accept_bufAt b now a)
    refine ⟨by rw [hat, if_pos rfl], fun a ha => by rw [hat, if_neg ha], hidx, htl, fun hrh h6 => ?_⟩
    rw [hx.eq_of_header hrh hw h6]
    exact ⟨hrh, rfl, rfl⟩

/-- Settles O36: the stall check and the transmission. -/
theorem tickAndEncodeStoreNothing : Obligations.TickAndEncodeStoreNothing := by
  intro i s t hb hreset h
  rcases exec_no_octet hb h with ⟨now, rfl, rfl⟩ | ⟨-, -, dst, ctrl, func, payload, -, rfl⟩ | ⟨rfl, -⟩
  · refine ⟨fun a => ?_, ?_, ?_, ?_, ?_, ?_, ?_, ?_, fun hne => absurd rfl (hne now)⟩ <;> simp
  · exact ⟨fun _ => rfl, rfl, rfl, rfl, rfl, rfl, rfl, rfl, fun _ => ⟨rfl, rfl, rfl⟩⟩
  · exact absurd rfl hreset

/-- Settles O47: an octet moves the time stamp where it makes progress; nothing else but RESET writes it. -/
theorem onlyProgressMovesTheTimeStamp : Obligations.OnlyProgressMovesTheTimeStamp := by
  intro i s t h hreset
  refine ⟨fun b now hb hn hp => ?progress, ?other⟩
  case progress =>
    obtain ⟨q, -, hx⟩ := exec_octetStep hb hn h
    exact hx.tl_of_progress hp
  case other =>
    rintro (hb | ⟨b, now, hb, hn, hp⟩)
    · obtain ⟨-, -, -, -, htl, -⟩ := tickAndEncodeStoreNothing i s t hb hreset h
      exact htl
    · obtain ⟨q, -, hx⟩ := exec_octetStep hb hn h
      exact hx.tl_of_no_progress hp

/-! ### When each event arises (R66, R71 to R73) -/

/-- TICK raises nothing but FRAME_TIMEOUT, from a stalled frame (R65). -/
theorem stallCheck_ev {s : State} {now : Nat} {e : Event} (he : e ≠ .noEvent) :
    (s.quiet.stallCheck now).ev = e ↔ s.stalled now = true ∧ e = .frameTimeout s.st s.idx := by
  rcases s.quiet.stallCheck_cases now with ⟨hw, hc⟩ | ⟨hw, hc⟩ <;> rw [State.quiet_stalled] at hw <;> rw [hc, hw]
  · simp [eq_comm]
  · simp [Ne.symm he]

/-- An event other than FRAME_TIMEOUT is raised by a step that takes an octet. -/
theorem octetStep_of_event {i : Instr} {s t : State} (h : exec i s = .next t) (hne : t.ev ≠ .noEvent)
    (hnt : ∀ q o, t.ev ≠ .frameTimeout q o) :
    ∃ b now q, octetTaken i = some b ∧ clockUsed i = some now ∧ OctetStep b now (s.present q) t := by
  rcases exec_cases h with ⟨b, now, q, hb, hn, -, hx⟩ | ⟨now, -, rfl⟩ | ⟨-, -, -, _, _, _, _, -, rfl⟩ | ⟨-, rfl⟩
  · exact ⟨b, now, q, hb, hn, hx⟩
  · exact absurd ((stallCheck_ev hne).mp rfl).2 (hnt _ _)
  · exact absurd rfl hne
  · exact absurd rfl hne

/-- A step that compares a clock finds the frame stalled exactly where it raises FRAME_TIMEOUT, and is then back in WFS
(R72). -/
theorem exec_timeout_iff {i : Instr} {s t : State} (h : exec i s = .next t) {q : AsmState} {o : BitVec 9} :
    t.ev = .frameTimeout q o ↔ ∃ now, clockUsed i = some now ∧ s.stalled now = true ∧ q = s.st ∧ o = s.idx := by
  rcases exec_cases h with ⟨b, now, p, -, hn, -, hx⟩ | ⟨now, rfl, rfl⟩ | ⟨-, -, hn, _, _, _, _, -, rfl⟩ | ⟨rfl, rfl⟩
  · constructor
    · exact fun hev => ⟨now, hn, hx.of_timeout hev⟩
    · rintro ⟨now', hn', hw, rfl, rfl⟩
      obtain rfl : now = now' := Option.some.inj (hn.symm.trans hn')
      rw [hx.eq_of_stalled hw]
      rfl
  · rw [stallCheck_ev (e := .frameTimeout q o) (by simp)]
    simp [clockUsed]
  · simp [hn]
  · simp [clockUsed]

/-- Settles O41: the event by the stall check; the state after it by what is then examined in WFS. -/
theorem timeoutExactlyWhenStalled : Obligations.TimeoutExactlyWhenStalled := by
  intro i s t q o h
  refine ⟨?arises, fun hev => ?after⟩
  case arises =>
    rw [exec_timeout_iff h]
    simp only [State.stalled_iff, stallMs, and_assoc]
  case after =>
    obtain ⟨now, hn, hw, -, -⟩ := (exec_timeout_iff h).mp hev
    cases hb : octetTaken i with
    | some b =>
      obtain ⟨p, -, hx⟩ := exec_octetStep hb hn h
      rw [hx.eq_of_stalled hw]
      refine ⟨rfl, nofun, fun b' hb' => ?_⟩
      rw [← Option.some.inj hb']
      rfl
    | none =>
      rcases exec_no_octet hb h with ⟨now', rfl, rfl⟩ | ⟨-, hn', -⟩ | ⟨rfl, -⟩
      · obtain rfl : now' = now := Option.some.inj hn
        rw [State.stallCheck_of_stalled (s := s.quiet) hw]
        exact ⟨rfl, fun _ => rfl, nofun⟩
      · rw [hn'] at hn
        cases hn
      · cases hn

/-- Settles O42: the row of a length octet that does not fit. -/
theorem overflowRiskExactlyWhenTooLong : Obligations.OverflowRiskExactlyWhenTooLong := by
  intro i s t len h
  have inversion (hev : t.ev = .bufferOverflowRisk len) :
      ∃ now, clockUsed i = some now ∧ octetTaken i = some len ∧ s.st = .rh ∧ s.stalled now = false ∧ s.idx = 6#9 ∧
        s.params.bufCap < 9 + len.toNat ∧
        ∃ q, t = ((s.present q).quiet.accept len now).abort (.bufferOverflowRisk len) := by
    obtain ⟨b, now, q, hb, hn, hx⟩ := octetStep_of_event h (by simp [hev]) (by simp [hev])
    obtain ⟨rfl, hs, hw, h6, hl, ht⟩ := hx.of_overflow hev
    exact ⟨now, hn, hb, hs, hw, h6, hl, q, ht⟩
  refine ⟨⟨fun hev => ?raised, ?raises⟩, fun hev => ?after⟩
  case raised =>
    obtain ⟨now, hn, hb, hs, hw, h6, hl, -⟩ := inversion hev
    exact ⟨now, hn, hb, hs, h6, (State.stalled_eq_false.mp hw).resolve_left (by simp [hs]), hl⟩
  case raises =>
    rintro ⟨now, hn, hb, hs, h6, htime, hl⟩
    obtain ⟨q, -, hx⟩ := exec_octetStep hb hn h
    exact hx.ev_of_too_long hs (State.stalled_of_le (s := s.present q) htime) h6 hl
  case after =>
    obtain ⟨now, -, -, -, -, h6, -, q, rfl⟩ := inversion hev
    refine ⟨rfl, rfl, fun a ha => ?_⟩
    have h6' : (s.present q).quiet.idx.toNat = 6 := by simp [h6]
    rw [State.abort_bufAt, State.accept_bufAt, h6', if_neg (by omega)]
    rfl

/-- A verdict is a mismatch exactly where the two sums differ, and it then names them. -/
theorem verdict_eq_mismatch_iff {s : State} {L : Nat} {cRx cCalc : Half} :
    s.verdict L = .checksumMismatch cRx cCalc ↔
      cRx = s.receivedSum L ∧ cCalc = s.computedSum L ∧ cRx ≠ cCalc := by
  by_cases hsum : s.receivedSum L = s.computedSum L
  · rw [State.verdict_of_eq hsum]
    refine ⟨nofun, ?_⟩
    rintro ⟨rfl, rfl, hne⟩
    exact absurd hsum hne
  · rw [State.verdict_of_ne hsum]
    constructor
    · intro h
      cases h
      exact ⟨rfl, rfl, hsum⟩
    · rintro ⟨rfl, rfl, -⟩
      rfl

/-- Settles O43: the last octet's event is the verdict on the frame that it completes. -/
theorem mismatchExactlyWhenSumsDiffer : Obligations.MismatchExactlyWhenSumsDiffer := by
  intro i s t cRx cCalc hinv h
  have inversion (hev : t.ev = .checksumMismatch cRx cCalc) :
      ∃ b now q, octetTaken i = some b ∧ clockUsed i = some now ∧ s.st = .rp ∧ s.stalled now = false ∧ s.rem = 1#9 ∧
        OctetStep b now (s.present q) t := by
    obtain ⟨b, now, q, hb, hn, hx⟩ := octetStep_of_event h (by simp [hev]) (by simp [hev])
    obtain ⟨hs, hw, hr, -⟩ := hx.of_completion (by rw [hev]; rfl)
    exact ⟨b, now, q, hb, hn, hs, hw, hr, hx⟩
  refine ⟨⟨fun hev => ?raised, ?raises⟩, fun hev => ?after⟩
  case raised =>
    obtain ⟨b, now, q, hb, hn, hs, hw, hr, hx⟩ := inversion hev
    have ht := hx.eq_of_byteStep (byteStep_last (s := s.present q) hinv hs hr hw)
    rw [ht] at hev
    obtain ⟨hrx, hcalc, hne⟩ := verdict_eq_mismatch_iff.mp hev
    refine ⟨now, b, hn, hb, hs, hr, (State.stalled_eq_false.mp hw).resolve_left (by simp [hs]), ?_⟩
    rw [ht]
    exact ⟨hrx, hcalc, hne⟩
  case raises =>
    rintro ⟨now, b, hn, hb, hs, hr, htime, hrx, hcalc, hne⟩
    obtain ⟨q, -, hx⟩ := exec_octetStep hb hn h
    have hw : (s.present q).stalled now = false := State.stalled_of_le htime
    have ht := hx.eq_of_byteStep (byteStep_last (s := s.present q) hinv hs hr hw)
    rw [ht] at hrx hcalc ⊢
    exact verdict_eq_mismatch_iff.mpr ⟨hrx, hcalc, hne⟩
  case after =>
    obtain ⟨b, now, q, -, -, hs, hw, hr, hx⟩ := inversion hev
    rw [hx.eq_of_byteStep (byteStep_last (s := s.present q) hinv hs hr hw)]
    exact ⟨rfl, rfl⟩

/-! ### A FRAME's fields (R66) -/

/-- The payload of a raw frame of the right length has the declared length. -/
theorem rawFields_payload_length {raw : List Byte} (h : raw.length = 9 + (rawOctet raw 6).toNat) :
    (rawFields raw).payload.length = (rawOctet raw 6).toNat := by
  rw [rawFields_payload h, List.length_map, List.length_range]

/-- The seven header octets of a raw frame are those of its fields (R38). -/
theorem take_header_eq {raw : List Byte} (h : 7 ≤ raw.length) :
    raw.take hdrLen = octets16 (rawField raw 0) ++ octets16 (rawField raw 2) ++
      [rawOctet raw 4, rawOctet raw 5, rawOctet raw 6] := by
  rw [rawField, rawField, octets16_be16, octets16_be16]
  match raw, h with
  | _ :: _ :: _ :: _ :: _ :: _ :: _ :: _, _ => rfl

/-- The octets that `decode` sums are those of a frame with the fields that it hands out (R48, R51). -/
theorem checksumRaw_eq_summedOctets {raw : List Byte} (h : raw.length = 9 + (rawOctet raw 6).toNat) :
    checksumRaw raw = sum16 (summedOctets (rawFields raw).src (rawFields raw).dst (rawFields raw).ctrl
      (rawFields raw).func (rawFields raw).payload) := by
  have hlen : lengthOctet (rawFields raw).payload = rawOctet raw 6 := by
    rw [lengthOctet, rawFields_payload_length h, BitVec.ofNat_toNat, BitVec.setWidth_eq]
  rw [checksumRaw, List.take_add, take_header_eq (by omega), summedOctets, hlen]
  simp only [rawFields, List.append_assoc]

/-- Settles O44: a FRAME's fields are those of a raw frame of the right length with equal checksums. -/
theorem framesHaveMatchingChecksums : Obligations.FramesHaveMatchingChecksums := by
  intro i s t f h hev
  obtain ⟨b, now, q, -, -, hx⟩ := octetStep_of_event h (by simp [hev]) (by simp [hev])
  obtain ⟨hs, -, -, hc⟩ := hx.of_completion (by rw [hev]; rfl)
  obtain ⟨⟨-, hlen⟩, ⟨hsum, rfl⟩ | ⟨-, rfl⟩⟩ := complete_cases hc
  · cases hev
    exact ⟨rawFields_payload_length hlen, hsum.trans (checksumRaw_eq_summedOctets hlen), hs, rfl, rfl⟩
  · cases hev

/-! ### Into a header and out of a frame (R64, R68) -/

/-- The octet AA is BYTE's: an inbound kind's first octet is 55. -/
theorem eq_byte_of_octetTaken_sync1 {i : Instr} (h : octetTaken i = some sync1) : ∃ now, i = .byte sync1 now := by
  have hne : ¬some (0x55#8 : Byte) = some sync1 := by decide
  cases i with
  | byte b now => exact ⟨now, by rw [Option.some.inj h]⟩
  | registrationRequest _ _ _ _ _ => exact absurd h hne
  | registrationConfirmation _ _ _ _ _ => exact absurd h hne
  | informationResponse _ _ _ _ _ => exact absurd h hne
  | _ => cases h

/-- The stall check leaves the state or goes to WFS without a partial match. -/
theorem stallCheck_st (s : State) (now : Nat) :
    ((s.stallCheck now).st = .wfs ∧ (s.stallCheck now).sp = false) ∨ (s.stallCheck now).st = s.st := by
  rcases s.stallCheck_cases now with ⟨-, hc⟩ | ⟨-, hc⟩ <;> rw [hc]
  · exact .inl ⟨rfl, rfl⟩
  · exact .inr rfl

/-- Settles O45: of all that a step can do only the row of the sync AA enters RH. -/
theorem headerStartsOnlyOnSync : Obligations.HeaderStartsOnlyOnSync := by
  intro i s t h ht hs
  rcases exec_cases h with ⟨b, now, q, hb, -, -, hx⟩ | ⟨now, -, rfl⟩ | ⟨-, -, -, _, _, _, _, -, rfl⟩ | ⟨-, rfl⟩
  · obtain ⟨hst, hsp, rfl⟩ := hx.of_enters_rh ht hs
    exact ⟨hst, hsp, eq_byte_of_octetTaken_sync1 hb⟩
  · rcases stallCheck_st s.quiet now with ⟨hst, -⟩ | hst <;> rw [hst] at ht
    · cases ht
    · exact absurd ht hs
  · exact absurd ht hs
  · cases ht

/-- Settles O46: of all that a step can do only a late octet leaves a partial match. -/
theorem frameEndLeavesNoPartialSync : Obligations.FrameEndLeavesNoPartialSync := by
  intro i s t h hs ht hsp
  rcases exec_cases h with ⟨b, now, q, hb, -, -, hx⟩ | ⟨now, -, rfl⟩ | ⟨-, -, -, _, _, _, _, -, rfl⟩ | ⟨-, rfl⟩
  · obtain ⟨hw, rfl⟩ := hx.of_leaves_partial hs ht hsp
    refine ⟨hb, s.st, s.idx, ?_⟩
    rw [hx.eq_of_stalled hw]
    rfl
  · rcases stallCheck_st s.quiet now with ⟨-, hsp'⟩ | hst
    · rw [hsp'] at hsp
      cases hsp
    · rw [hst] at ht
      exact absurd ht hs
  · exact absurd ht hs
  · cases hsp

/-- Settles O40: each state and each event has its code. -/
theorem codesAreAsTabled : Obligations.CodesAreAsTabled := by
  refine ⟨rfl, rfl, rfl, fun q => ?states, rfl, fun _ => rfl, fun _ _ => rfl, fun _ _ => rfl, fun _ => rfl,
    fun e => ?events⟩
  case states => cases q <;> decide
  case events => cases e <;> simp [Event.code]

end Sys2Proof.Machine
end

section
/-! The invariant of R27 and the form of the buffer and of the time stamp: at reset, after every step, in every
reachable state; and that under the invariant every instruction completes (R16, R30). -/

namespace Sys2Proof.Machine

/-! ### The invariant, state by state (R27) -/

/-- In WFS the invariant asks for nothing. -/
theorem inv_of_wfs {s : State} (h : s.st = .wfs) : s.Inv :=
  ⟨fun hne => absurd h hne, fun hrh => (nomatch h.symm.trans hrh), fun hrp => (nomatch h.symm.trans hrp)⟩

theorem inv_of_rh {s : State} (h : s.st = .rh) (hsp : s.sp = false) (hi : s.idx.toNat ≤ 6) : s.Inv :=
  ⟨fun _ => hsp, fun _ => hi, fun hrp => (nomatch h.symm.trans hrp)⟩

/-- In RP the bounds of the countdown follow from those of the index. -/
theorem inv_of_rp {s : State} (h : s.st = .rp) (hsp : s.sp = false) (hlo : 7 ≤ s.idx.toNat)
    (hhi : s.idx.toNat ≤ 8 + s.declaredLen) (hrem : s.rem.toNat = 9 + s.declaredLen - s.idx.toNat)
    (hcap : 9 + s.declaredLen ≤ s.params.bufCap) : s.Inv :=
  ⟨fun _ => hsp, fun hrh => (nomatch h.symm.trans hrh), fun _ => ⟨⟨hlo, hhi⟩, hrem, by omega, hcap⟩⟩

theorem inv_sp {s : State} (h : s.Inv) (hs : s.st ≠ .wfs) : s.sp = false := h.1 hs

theorem inv_rh {s : State} (h : s.Inv) (hs : s.st = .rh) : s.idx.toNat ≤ 6 := h.2.1 hs

/-- Settles O51: a reset state is in WFS, and `State.reset` lists no octet and has the time stamp 0. -/
theorem resetStatesSatisfyTheInvariant : Obligations.ResetStatesSatisfyTheInvariant :=
  ⟨fun _ h => inv_of_wfs h.1, ⟨rfl, rfl⟩, ⟨List.Pairwise.nil, List.forall_mem_nil _⟩, Nat.two_pow_pos _⟩

/-! ### Every step keeps the invariant -/

section
variable {b : Byte} {now : Nat} {s : State}

/-- A header octet before the seventh keeps the invariant. -/
theorem inv_accept_header (hinv : s.Inv) (hs : s.st = .rh) (h7 : s.idx + 1#9 ≠ 7#9) : (s.accept b now).Inv := by
  have hi := inv_rh hinv hs
  rw [ne_eq, idx_succ_eq_seven_iff] at h7
  refine inv_of_rh hs (inv_sp (s := s) hinv (by simp [hs])) ?_
  rw [State.accept_idx, idx_succ_toNat] <;> omega

/-- The length octet of a frame that fits establishes the invariant of RP: `idx` is 7 and `rem` is `L + 2` (R61). -/
theorem inv_accept_enterRP (hinv : s.Inv) (hs : s.st = .rh) (h7 : s.idx + 1#9 = 7#9)
    (hl : 9 + b.toNat ≤ s.params.bufCap) : ((s.accept b now).enterRP b).Inv := by
  have h6 := idx_succ_eq_seven_iff.mp h7
  have hb := b.isLt
  have hdecl : ((s.accept b now).enterRP b).declaredLen = b.toNat := by
    rw [State.declaredLen, State.enterRP_bufAt, State.accept_bufAt, if_pos h6.symm]
  have hidx : ((s.accept b now).enterRP b).idx.toNat = 7 := by
    rw [State.enterRP_idx, State.accept_idx, h7]
    rfl
  have hrem : ((s.accept b now).enterRP b).rem.toNat = b.toNat + 2 := by
    rw [State.enterRP_rem, csLen, BitVec.toNat_ofNat]
    omega
  refine inv_of_rp rfl (inv_sp (s := s) hinv (by simp [hs])) ?_ ?_ ?_ ?_
  · omega
  · omega
  · omega
  · rw [hdecl]
    exact hl

/-- A payload or checksum octet that is not the last keeps the invariant: `idx` moves on as `rem` falls (R62). -/
theorem inv_accept_countDown (hinv : s.Inv) (hs : s.st = .rp) (hr : s.rem - 1#9 ≠ 0#9) :
    (s.accept b now).countDown.Inv := by
  obtain ⟨hlo, hhi, hrem, hcap⟩ := inv_rp hinv hs
  have hlen := declaredLen_lt s
  have hne : s.rem.toNat ≠ 1 := by bv_omega
  have hdecl : (s.accept b now).countDown.declaredLen = s.declaredLen :=
    accept_declaredLen (now := now) (by omega)
  have hidx : (s.accept b now).countDown.idx.toNat = s.idx.toNat + 1 := idx_succ_toNat (by omega)
  have hrem' : (s.accept b now).countDown.rem.toNat = s.rem.toNat - 1 :=
    rem_pred_toNat (x := s.rem) (by omega)
  refine inv_of_rp hs (inv_sp (s := s) hinv (by simp [hs])) ?_ ?_ ?_ ?_
  · omega
  · omega
  · omega
  · rw [hdecl]
    exact hcap

/-- Taking an octet keeps the invariant. -/
theorem OctetStep.inv {t : State} (h : OctetStep b now s t) (hinv : s.Inv) : t.Inv := by
  cases h with
  | late _ ht => subst ht; exact inv_of_wfs rfl
  | sync _ _ _ ht => subst ht; exact inv_of_rh rfl rfl (Nat.zero_le _)
  | hunt hs _ ht => subst ht; exact inv_of_wfs hs
  | header hs _ _ h7 ht => subst ht; exact inv_accept_header (s := s.quiet) hinv hs h7
  | reject _ _ _ _ _ ht => subst ht; exact inv_of_wfs rfl
  | declare hs _ _ h7 hl ht => subst ht; exact inv_accept_enterRP (s := s.quiet) hinv hs h7 hl
  | payload hs _ _ hr ht => subst ht; exact inv_accept_countDown (s := s.quiet) hinv hs hr
  | last _ _ _ _ ht =>
    obtain ⟨e, rfl⟩ := complete_eq_abort ht
    exact inv_of_wfs rfl

end

/-- Every instruction keeps the invariant. -/
theorem exec_inv {i : Instr} {s t : State} (hinv : s.Inv) (h : exec i s = .next t) : t.Inv := by
  rcases exec_cases h with ⟨b, now, q, -, -, -, hx⟩ | ⟨now, -, rfl⟩ | ⟨-, -, -, _, _, _, _, -, rfl⟩ | ⟨-, rfl⟩
  · exact hx.inv (s := s.present q) hinv
  · rcases s.quiet.stallCheck_cases now with ⟨-, hc⟩ | ⟨-, hc⟩ <;> rw [hc]
    · exact inv_of_wfs rfl
    · exact hinv
  · exact hinv
  · exact inv_of_wfs rfl

/-- Settles O52: an idle step changes no register, and every instruction keeps the invariant. -/
theorem everyStepKeepsTheInvariant : Obligations.EveryStepKeepsTheInvariant := by
  intro s t hinv h
  rcases step_cases h with ⟨-, rfl⟩ | ⟨item, rest, i, -, -, hx⟩
  · exact hinv
  · exact exec_inv (s := s.present rest) hinv hx

/-! ### The form of the buffer and of the time stamp (R21, R24) -/

/-- An accepted octet keeps the buffer's form and gives the time stamp its width. -/
theorem OctetStep.bufOk {b : Byte} {now : Nat} {s t : State} (h : OctetStep b now s t) (hbuf : s.BufOk)
    (hclock : s.ClockOk) : t.BufOk ∧ t.ClockOk := by
  obtain ⟨hwf, hin⟩ := hbuf
  obtain ⟨hparams, -⟩ := h.frame
  rw [State.BufOk, State.ClockOk, hparams]
  have htl : t.tl < 2 ^ s.params.clockW := by
    by_cases hp : MakesProgress b now s
    · rw [h.tl_of_progress hp]
      exact clockPort_lt _ _
    · rw [h.tl_of_no_progress hp]
      exact hclock
  refine ⟨?_, htl⟩
  by_cases hs : s.st = .wfs ∨ s.stalled now = true
  · rw [(h.stores_nothing hs).1]
    exact ⟨hwf, hin⟩
  · rw [not_or, Bool.not_eq_true] at hs
    obtain ⟨hb, -, -, hi⟩ := h.accepts hs.1 hs.2
    rw [hb]
    exact ⟨Memory.wf_write hwf _ _, Memory.within_write hin hi _⟩

/-- Settles O53: an octet is stored in order and below BUF_CAP; RESET lists nothing. -/
theorem everyStepKeepsBufferForm : Obligations.EveryStepKeepsBufferForm := by
  intro s t hbuf hclock h
  rcases step_cases h with ⟨-, rfl⟩ | ⟨item, rest, i, -, -, h⟩
  · exact ⟨hbuf, hclock⟩
  rcases exec_cases h with ⟨b, now, q, -, -, -, hx⟩ | ⟨now, -, rfl⟩ | ⟨-, -, -, _, _, _, _, -, rfl⟩ | ⟨-, rfl⟩
  · exact hx.bufOk (s := (s.present rest).present q) hbuf hclock
  · rcases (s.present rest).quiet.stallCheck_cases now with ⟨-, hc⟩ | ⟨-, hc⟩ <;> rw [hc]
    · exact ⟨hbuf, hclock⟩
    · exact ⟨hbuf, hclock⟩
  · exact ⟨hbuf, hclock⟩
  · exact ⟨⟨List.Pairwise.nil, List.forall_mem_nil _⟩, clockPort_lt _ _⟩

/-! ### Every instruction completes (R15, R30) -/

/-- Under the invariant every BYTE step answers a next state: the octet has an element, and a frame that is completed
has its length. -/
theorem byteStep_completes {s : State} (hinv : s.Inv) (b : Byte) (now : Nat) : ∃ t, byteStep b now s = .next t := by
  cases hw : s.stalled now with
  | true => exact ⟨_, byteStep_of_stalled hw⟩
  | false =>
    cases hs : s.st with
    | wfs => exact ⟨_, byteStep_wfs hs⟩
    | rh => exact ⟨_, byteStep_rh hs hw (idx_lt_bufCap_of_le_six (inv_rh hinv hs))⟩
    | rp =>
      by_cases hr : s.rem = 1#9
      · exact ⟨_, byteStep_last hinv hs hr hw⟩
      · exact ⟨_, byteStep_rp_of_ne_one hs hw (inv_rp_idx_lt hinv hs) hr⟩

/-- Settles O54: by the form of the instruction. -/
theorem everyInstructionCompletes : Obligations.EveryInstructionCompletes := by
  intro i s hinv hwf
  cases execForm_of_wf hwf with
  | octet b now pre hx => rw [hx]; exact byteStep_completes (s := s.present (pre ++ s.inbox)) hinv b now
  | check now hx => exact ⟨_, hx s⟩
  | transmit dst ctrl func payload hx => exact ⟨_, hx s⟩
  | clear hx => exact ⟨_, hx s⟩

/-- Under the invariant a step goes on, or is refused because the decoder rejects the oldest entry. -/
theorem step_of_inv {s : State} (hinv : s.Inv) :
    (∃ t, step s = .next t) ∨ ∃ e, step s = .refused (.invalid e) := by
  cases hq : s.inbox with
  | nil => exact .inl ⟨_, step_of_inbox_nil hq⟩
  | cons item rest =>
    cases hd : decode item with
    | ok i =>
      rw [step_of_decode_ok hq hd]
      exact .inl (everyInstructionCompletes i (s.present rest) hinv (decodedInstructionsAreWellFormed item i hd))
    | invalid e => exact .inr ⟨e, step_of_decode_invalid hq hd⟩

/-- The invariant holds in every reachable state. -/
theorem Reachable.inv {s : State} (h : Reachable s) : s.Inv := by
  induction h with
  | reset hreset => exact inv_of_wfs hreset.1
  | present q _ ih => exact ih
  | exec i _ hx ih => exact exec_inv ih hx
  | step _ hx ih => exact everyStepKeepsTheInvariant _ _ ih hx

/-- Settles O55: reachable states have the invariant. -/
theorem reachableBlockNeverStops : Obligations.ReachableBlockNeverStops := by
  intro s h
  have hinv := h.inv
  refine ⟨hinv, fun i => everyInstructionCompletes i s hinv, fun f hf => ?_, fun r hr => ?_⟩
  · rcases step_of_inv hinv with ⟨t, ht⟩ | ⟨e, he⟩
    · rw [ht] at hf
      cases hf
    · rw [he] at hf
      cases hf
  · rcases step_of_inv hinv with ⟨t, ht⟩ | ⟨e, he⟩
    · rw [ht] at hr
      cases hr
    · rw [he] at hr
      cases hr
      exact ⟨e, rfl⟩

end Sys2Proof.Machine
end

section
/-! Steps of two states: states that agree on the live registers (R27, U3), and states whose buffers have different
capacities of at least 264 octets (R6). -/

namespace Sys2Proof.Machine

/-- The completion of a frame reads the raw frame alone: where two raw frames are equal, so are the events. -/
theorem complete_congr {s t s' : State} (hraw : s.raw = t.raw) (h : complete s = .next s') :
    ∃ e, s' = s.abort e ∧ complete t = .next (t.abort e) := by
  unfold complete at h ⊢
  rw [hraw] at h
  split at h
  · cases h
  · exact ⟨_, (Host.Outcome.next.inj h).symm, rfl⟩
  · exact ⟨_, (Host.Outcome.next.inj h).symm, rfl⟩

/-- In RH and RP the index lies below 264, whatever the capacity (R27). -/
theorem inv_idx_lt_264 {s : State} (hinv : s.Inv) (hs : s.st ≠ .wfs) : s.idx.toNat < 264 := by
  cases hst : s.st with
  | wfs => exact absurd hst hs
  | rh =>
    have hi := inv_rh hinv hst
    omega
  | rp =>
    obtain ⟨-, hi, -, -⟩ := inv_rp hinv hst
    have hlen := declaredLen_lt s
    omega

/-! ### Dead registers (R26, R27) -/

section
variable {s t : State}

/-- In WFS only the parameters, what is presented and `sp` are live. -/
theorem sameLive_of_wfs (hs : s.st = .wfs) (ht : t.st = .wfs) (hp : s.params = t.params) (hq : s.inbox = t.inbox)
    (hsp : s.sp = t.sp) : SameLive s t :=
  ⟨hp, hq, hs.trans ht.symm, hsp, fun hne => absurd hs hne, fun hrp => (nomatch hs.symm.trans hrp)⟩

/-- States that agree find a frame stalled at the same times. -/
theorem SameLive.stalled_eq (h : SameLive s t) (now : Nat) : s.stalled now = t.stalled now := by
  obtain ⟨hp, -, hst, -, hlive, -⟩ := h
  by_cases hs : s.st = .wfs
  · rw [State.stalled_wfs hs, State.stalled_wfs (hst ▸ hs)]
  · obtain ⟨-, htl, -⟩ := hlive hs
    rw [State.stalled, State.stalled, hp, hst, htl]

/-- States that agree still do when both have gone to WFS. -/
theorem SameLive.abort (h : SameLive s t) (e e' : Event) : SameLive (s.abort e) (t.abort e') := by
  obtain ⟨hp, hq, -⟩ := h
  exact sameLive_of_wfs rfl rfl hp hq rfl

/-- Accepting the same octet, states agree on one more element of the buffer. -/
theorem SameLive.accept (h : SameLive s t) (hs : s.st ≠ .wfs) (hi : s.idx.toNat < 264) (b : Byte) (now : Nat) :
    SameLive (s.accept b now) (t.accept b now) := by
  obtain ⟨hp, hq, hst, hsp, hlive, hrem⟩ := h
  obtain ⟨hidx, -, hbuf⟩ := hlive hs
  refine ⟨hp, hq, hst, hsp, fun _ => ⟨?_, ?_, fun i hlt => ?_⟩, hrem⟩
  · rw [State.accept_idx, State.accept_idx, hidx]
  · rw [State.accept_tl, State.accept_tl, hp]
  · rw [State.accept_idx, idx_succ_toNat (by omega)] at hlt
    rw [State.accept_bufAt, State.accept_bufAt, ← hidx]
    by_cases hi : i = s.idx.toNat
    · rw [if_pos hi, if_pos hi]
    · rw [if_neg hi, if_neg hi, hbuf i (by omega)]

/-- States that agree count down together. -/
theorem SameLive.countDown (h : SameLive s t) : SameLive s.countDown t.countDown := by
  obtain ⟨hp, hq, hst, hsp, hlive, hrem⟩ := h
  exact ⟨hp, hq, hst, hsp, hlive, fun hs => congrArg (· - 1#9) (hrem hs)⟩

/-- States that agree in a header start the same countdown. -/
theorem SameLive.enterRP (h : SameLive s t) (hs : s.st ≠ .wfs) (len : Byte) :
    SameLive (s.enterRP len) (t.enterRP len) := by
  obtain ⟨hp, hq, -, hsp, hlive, -⟩ := h
  exact ⟨hp, hq, rfl, hsp, fun _ => hlive hs, fun _ => rfl⟩

/-- States that agree in a frame hold the same raw frame. -/
theorem SameLive.raw_eq (h : SameLive s t) (hs : s.st ≠ .wfs) : s.raw = t.raw := by
  obtain ⟨-, -, -, -, hlive, -⟩ := h
  obtain ⟨hidx, -, hbuf⟩ := hlive hs
  rw [State.raw, State.raw, ← hidx]
  exact State.bufSlice_congr fun i hi => by rw [Nat.zero_add]; exact hbuf i hi

/-- States that agree follow the same row of the transition table, with the same outputs. -/
theorem SameLive.octetStep {b : Byte} {now : Nat} {s' : State} (h : SameLive s t) (hinv : s.Inv)
    (hx : OctetStep b now s s') : ∃ t', OctetStep b now t t' ∧ SameLive s' t' ∧ SameOutputs s' t' := by
  have hquiet : SameLive s.quiet t.quiet := h
  have hstall := h.stalled_eq now
  obtain ⟨hp, hq, hst, hsp, hlive, hrem⟩ := h
  have hidx (hs : s.st ≠ .wfs) : s.idx = t.idx := (hlive hs).1
  have hacc (hs : s.st ≠ .wfs) : SameLive (s.quiet.accept b now) (t.quiet.accept b now) :=
    hquiet.accept hs (inv_idx_lt_264 hinv hs) b now
  cases hx with
  | late hw ht =>
    have hs : s.st ≠ .wfs := (State.stalled_iff.mp hw).1
    subst ht
    refine ⟨_, .late (hstall ▸ hw) rfl, sameLive_of_wfs rfl rfl hp hq rfl, ?_, rfl, rfl⟩
    rw [State.setSp_ev, State.setSp_ev, State.abort_ev, State.abort_ev, hst, hidx hs]
  | sync hs hsp' hb ht =>
    subst ht
    refine ⟨_, .sync (hst ▸ hs) (hsp ▸ hsp') hb rfl, ⟨hp, hq, rfl, rfl, fun _ => ⟨rfl, ?_, nofun⟩, nofun⟩,
      rfl, rfl, rfl⟩
    rw [State.enterRH_tl, State.enterRH_tl, State.quiet_params, State.quiet_params, hp]
  | hunt hs hb ht =>
    subst ht
    exact ⟨_, .hunt (hst ▸ hs) (hsp ▸ hb) rfl, sameLive_of_wfs hs (hst ▸ hs) hp hq rfl, rfl, rfl, rfl⟩
  | header hs hw hi h7 ht =>
    have hne : s.st ≠ .wfs := by simp [hs]
    subst ht
    rw [hidx hne, hp] at hi
    rw [hidx hne] at h7
    exact ⟨_, .header (hst ▸ hs) (hstall ▸ hw) hi h7 rfl, hacc hne, rfl, rfl, rfl⟩
  | reject hs hw hi h7 hl ht =>
    have hne : s.st ≠ .wfs := by simp [hs]
    subst ht
    rw [hidx hne, hp] at hi
    rw [hidx hne] at h7
    exact ⟨_, .reject (hst ▸ hs) (hstall ▸ hw) hi h7 (hp ▸ hl) rfl, (hacc hne).abort _ _, rfl, rfl, rfl⟩
  | declare hs hw hi h7 hl ht =>
    have hne : s.st ≠ .wfs := by simp [hs]
    subst ht
    rw [hidx hne, hp] at hi
    rw [hidx hne] at h7
    exact ⟨_, .declare (hst ▸ hs) (hstall ▸ hw) hi h7 (hp ▸ hl) rfl, (hacc hne).enterRP hne b, rfl, rfl, rfl⟩
  | payload hs hw hi hr ht =>
    have hne : s.st ≠ .wfs := by simp [hs]
    subst ht
    rw [hidx hne, hp] at hi
    rw [hrem hs] at hr
    exact ⟨_, .payload (hst ▸ hs) (hstall ▸ hw) hi hr rfl, (hacc hne).countDown, rfl, rfl, rfl⟩
  | last hs hw hi hr ht =>
    have hne : s.st ≠ .wfs := by simp [hs]
    obtain ⟨e, rfl, hc⟩ := complete_congr ((hacc hne).countDown.raw_eq hne) ht
    rw [hidx hne, hp] at hi
    rw [hrem hs] at hr
    exact ⟨_, .last (hst ▸ hs) (hstall ▸ hw) hi hr hc, (hacc hne).countDown.abort e e, rfl, rfl, rfl⟩

/-- States that agree find the same stall at a time check. -/
theorem SameLive.stallCheck (h : SameLive s t) (now : Nat) :
    SameLive (s.quiet.stallCheck now) (t.quiet.stallCheck now) ∧
    SameOutputs (s.quiet.stallCheck now) (t.quiet.stallCheck now) := by
  have hquiet : SameLive s.quiet t.quiet := h
  have hstall := h.stalled_eq now
  cases hw : s.stalled now with
  | true =>
    have hs : s.st ≠ .wfs := (State.stalled_iff.mp hw).1
    obtain ⟨-, -, hst, -, hlive, -⟩ := h
    obtain ⟨hidx, -, -⟩ := hlive hs
    rw [State.stallCheck_of_stalled (s := s.quiet) hw, State.stallCheck_of_stalled (s := t.quiet) (hstall ▸ hw)]
    refine ⟨hquiet.abort _ _, ?_, rfl, rfl⟩
    rw [State.abort_ev, State.abort_ev, State.quiet_st, State.quiet_st, State.quiet_idx, State.quiet_idx, hst, hidx]
  | false =>
    rw [State.stallCheck_of_not_stalled (s := s.quiet) hw,
      State.stallCheck_of_not_stalled (s := t.quiet) (hstall ▸ hw)]
    exact ⟨hquiet, rfl, rfl, rfl⟩

/-- States that agree execute an instruction alike. -/
theorem SameLive.exec {i : Instr} {s' : State} (h : SameLive s t) (hinv : s.Inv) (hx : exec i s = .next s') :
    ∃ t', exec i t = .next t' ∧ SameLive s' t' ∧ SameOutputs s' t' := by
  obtain ⟨hp, hq, hrest⟩ := id h
  cases execForm_of_wf (wf_of_exec_next hx) with
  | octet b now pre hform =>
    rw [hform] at hx
    have hpre : SameLive (s.present (pre ++ s.inbox)) (t.present (pre ++ t.inbox)) :=
      ⟨hp, congrArg (pre ++ ·) hq, hrest⟩
    obtain ⟨t', ht', hsame⟩ := hpre.octetStep hinv (byteStep_octetStep hx)
    exact ⟨t', (hform t).trans ht'.byteStep_eq, hsame⟩
  | check now hform =>
    obtain rfl := Host.Outcome.next.inj ((hform s).symm.trans hx)
    exact ⟨_, hform t, h.stallCheck now⟩
  | transmit dst ctrl func payload hform =>
    obtain rfl := Host.Outcome.next.inj ((hform s).symm.trans hx)
    rw [hform, hp]
    exact ⟨_, rfl, h, rfl, rfl, rfl⟩
  | clear hform =>
    obtain rfl := Host.Outcome.next.inj ((hform s).symm.trans hx)
    exact ⟨_, hform t, sameLive_of_wfs rfl rfl hp hq rfl, rfl, rfl, rfl⟩

end

/-- Settles O56: the two states are idle together, or decode the same entry and execute it alike. -/
theorem deadRegistersDoNotMatter : Obligations.DeadRegistersDoNotMatter := by
  intro s t s' hinv _ h hstep
  obtain ⟨hp, hq, hrest⟩ := id h
  rcases step_cases hstep with ⟨hnil, rfl⟩ | ⟨item, rest, i, hcons, hd, hx⟩
  · exact ⟨_, step_of_inbox_nil (hq ▸ hnil), h, rfl, rfl, rfl⟩
  · have hpresent : SameLive (s.present rest) (t.present rest) := ⟨hp, rfl, hrest⟩
    rw [step_of_decode_ok (s := t) (hq ▸ hcons) hd]
    exact hpresent.exec hinv hx

/-! ### Capacities of at least 264 (R6) -/

/-- The same state of a block whose buffer has another capacity. -/
def State.withCap (cap : Nat) (h : 9 ≤ cap) (s : State) : State := { s with params := s.params.withCap cap h }

/-- A row of the transition table that holds for a capacity of at least 264 holds for every other: no index and no
declared length comes near it. -/
theorem OctetStep.withCap {b : Byte} {now cap : Nat} {s t : State} (hx : OctetStep b now s t) (h : 9 ≤ cap)
    (hinv : s.Inv) (hs : 264 ≤ s.params.bufCap) (hcap : 264 ≤ cap) :
    OctetStep b now (s.withCap cap h) (t.withCap cap h) := by
  have hlen := b.isLt
  have hfits : hdrLen + csLen + b.toNat ≤ 264 := by
    rw [hdrLen, csLen]
    omega
  have hi' (hst : s.st ≠ .wfs) : s.idx.toNat < cap := Nat.lt_of_lt_of_le (inv_idx_lt_264 hinv hst) hcap
  cases hx with
  | late hw ht => subst ht; exact .late hw rfl
  | sync hst hsp hb ht => subst ht; exact .sync hst hsp hb rfl
  | hunt hst hb ht => subst ht; exact .hunt hst hb rfl
  | header hst hw _ h7 ht => subst ht; exact .header hst hw (hi' (by simp [hst])) h7 rfl
  | reject _ _ _ _ hl _ => omega
  | declare hst hw _ h7 _ ht => subst ht; exact .declare hst hw (hi' (by simp [hst])) h7 (hfits.trans hcap) rfl
  | payload hst hw _ hr ht => subst ht; exact .payload hst hw (hi' (by simp [hst])) hr rfl
  | last hst hw _ hr ht =>
    obtain ⟨e, rfl, hc⟩ := complete_congr (s := (s.quiet.accept b now).countDown)
      (t := ((s.withCap cap h).quiet.accept b now).countDown) rfl ht
    exact .last hst hw (hi' (by simp [hst])) hr hc

/-- A time check does not see the capacity. -/
theorem stallCheck_withCap {cap : Nat} (h : 9 ≤ cap) (s : State) (now : Nat) :
    (s.withCap cap h).stallCheck now = (s.stallCheck now).withCap cap h := by
  rcases s.stallCheck_cases now with ⟨hw, hc⟩ | ⟨hw, hc⟩ <;> rw [hc]
  · exact State.stallCheck_of_stalled (s := s.withCap cap h) hw
  · exact State.stallCheck_of_not_stalled (s := s.withCap cap h) hw

/-- Settles O57: by the form of the instruction. -/
theorem capacityAbove264IsAs264 : Obligations.CapacityAbove264IsAs264 := by
  intro i s t cap h hinv hs hcap hx
  have ht : { t with params := s.params.withCap cap h } = t.withCap cap h := by rw [State.withCap, exec_params hx]
  rw [ht]
  change exec i (s.withCap cap h) = .next (t.withCap cap h)
  cases execForm_of_wf (wf_of_exec_next hx) with
  | octet b now pre hform =>
    rw [hform] at hx ⊢
    exact ((byteStep_octetStep hx).withCap h hinv hs hcap).byteStep_eq
  | check now hform =>
    obtain rfl := Host.Outcome.next.inj ((hform s).symm.trans hx)
    rw [hform]
    exact congrArg Host.Outcome.next (stallCheck_withCap h s.quiet now)
  | transmit dst ctrl func payload hform =>
    obtain rfl := Host.Outcome.next.inj ((hform s).symm.trans hx)
    exact hform _
  | clear hform =>
    obtain rfl := Host.Outcome.next.inj ((hform s).symm.trans hx)
    exact hform _

end Sys2Proof.Machine
end

section
/-! A whole frame, octet by octet (R53, R66): what the state is after `k` octets of a wire frame, how the next octet and
the steps between octets keep that, and the delivery of the frame with its last octet. -/

namespace Sys2Proof.Machine

/-! ### A frame under reception -/

/-- The first `n` octets of a raw frame have been accepted, the last of them, or the sync octet AA, at `last`. -/
def State.Holds (raw : List Byte) (n last : Nat) (s : State) : Prop :=
  s.idx.toNat = n ∧ s.tl = clockPort s.params.clockW last ∧ ∀ i < n, s.bufAt i = rawOctet raw i

/-- `k` octets of the wire frame with this raw frame have been presented from WFS, and more are to come. -/
inductive Receiving (raw : List Byte) (last : Nat) : Nat → State → Prop where
  /-- None: whether there is a partial match does not matter. -/
  | hunting {s : State} (hs : s.st = .wfs) : Receiving raw last 0 s
  /-- The first sync octet. -/
  | halfSync {s : State} (hs : s.st = .wfs) (hsp : s.sp = true) : Receiving raw last 1 s
  /-- The sync octets and `n` of the header. -/
  | header {s : State} {n : Nat} (hs : s.st = .rh) (hn : n ≤ 6) (hraw : s.Holds raw n last) :
      Receiving raw last (n + 2) s
  /-- The sync octets, the header and some of what follows it. -/
  | payload {s : State} {n : Nat} (hs : s.st = .rp) (hn : 7 ≤ n) (hlt : n < raw.length)
      (hrem : s.rem.toNat = raw.length - n) (hraw : s.Holds raw n last) : Receiving raw last (n + 2) s

section
variable {raw : List Byte} {n k last now : Nat} {s : State}

/-- Within the window of the last octet a frame is not stalled. -/
theorem State.Holds.stalled_eq_false (h : s.Holds raw n last)
    (htime : elapsed s.params.clockW now last ≤ stallMs) : s.stalled now = false := by
  obtain ⟨-, htl, -⟩ := h
  apply State.stalled_of_le
  rw [htl, elapsed_clockPort]
  exact htime

/-- The next octet of the raw frame is accepted. -/
theorem State.Holds.accept (h : s.Holds raw n last) (hn : n ≤ 263) :
    (s.quiet.accept (rawOctet raw n) now).Holds raw (n + 1) now := by
  obtain ⟨hidx, -, hbuf⟩ := h
  refine ⟨?_, rfl, fun i hi => ?_⟩
  · rw [State.accept_idx, State.quiet_idx, idx_succ_toNat (by omega), hidx]
  · rw [State.accept_bufAt, State.quiet_idx, State.quiet_bufAt, hidx]
    by_cases hin : i = n
    · rw [if_pos hin, hin]
    · rw [if_neg hin, hbuf i (by omega)]

/-- When all octets have been accepted the buffer holds the raw frame (R30). -/
theorem State.Holds.raw_eq (h : s.Holds raw raw.length last) : s.raw = raw := by
  obtain ⟨hidx, -, hbuf⟩ := h
  have hall : (raw.drop 0).take raw.length = (List.range raw.length).map fun i => raw.getD (0 + i) 0 :=
    drop_take_eq_map_getD (by omega)
  rw [List.drop_zero, List.take_length] at hall
  rw [State.raw, hidx]
  refine Eq.trans (List.map_congr_left fun i hi => ?_) hall.symm
  rw [Nat.zero_add, hbuf i (List.mem_range.mp hi)]
  rfl

/-- The outputs and what is presented are no part of a reception. -/
theorem Receiving.with_outputs (h : Receiving raw last k s) (e : Event) (x : List Byte) (l : Option (BitVec 9))
    (q : List HostItem) : Receiving raw last k { s with ev := e, tx := x, txLen := l, inbox := q } := by
  cases h with
  | hunting hs => exact .hunting hs
  | halfSync hs hsp => exact .halfSync hs hsp
  | header hs hn hraw => exact .header hs hn hraw
  | payload hs hn hlt hrem hraw => exact .payload hs hn hlt hrem hraw

/-- A reception within the window is not stalled. -/
theorem Receiving.stalled_eq_false (h : Receiving raw last k s)
    (htime : 2 ≤ k → elapsed s.params.clockW now last ≤ stallMs) : s.stalled now = false := by
  cases h with
  | hunting hs => exact State.stalled_wfs hs now
  | halfSync hs _ => exact State.stalled_wfs hs now
  | header _ _ hraw => exact hraw.stalled_eq_false (htime (Nat.le_add_left 2 _))
  | payload _ _ _ _ hraw => exact hraw.stalled_eq_false (htime (Nat.le_add_left 2 _))

/-! ### The next octet -/

/-- An octet of the wire frame that is not its last raises no event and the reception goes on. -/
theorem Receiving.next (h : Receiving raw last k s) (hlen : raw.length = 9 + (rawOctet raw 6).toNat)
    (hcap : raw.length ≤ s.params.bufCap) (htime : 2 ≤ k → elapsed s.params.clockW now last ≤ stallMs)
    (hk : k + 1 < raw.length + 2) :
    ∃ t, byteStep (rawOctet (sync0 :: sync1 :: raw) k) now s = .next t ∧ t.ev = .noEvent ∧
      Receiving raw now (k + 1) t := by
  have hw := h.stalled_eq_false htime
  have hL := (rawOctet raw 6).isLt
  cases h with
  | hunting hs => exact ⟨_, byteStep_sync0_wfs hs, rfl, .halfSync hs rfl⟩
  | halfSync hs hsp => exact ⟨_, byteStep_wfs_of_sync hs hsp, rfl, .header rfl (Nat.zero_le 6) ⟨rfl, rfl, nofun⟩⟩
  | @header _ n hs hn hraw =>
    have hidx : s.idx.toNat = n := hraw.1
    rcases Nat.lt_or_eq_of_le hn with hlt | rfl
    · exact ⟨_, byteStep_rh_of_lt_six hs hw (by omega), rfl, .header hs hlt (hraw.accept (by omega))⟩
    · have hfits : 9 + (rawOctet raw 6).toNat ≤ (s.quiet.accept (rawOctet raw 6) now).params.bufCap := hlen ▸ hcap
      have hstep := byteStep_rh_of_eq_six (b := rawOctet raw 6) hs hw hidx
      rw [lengthCheck_of_le hfits] at hstep
      refine ⟨_, hstep, rfl, .payload rfl (Nat.le_refl 7) (by omega) ?_ (hraw.accept (by omega))⟩
      rw [State.enterRP_rem, csLen, BitVec.toNat_ofNat]
      omega
  | @payload _ n hs hn hlt hrem hraw =>
    have hidx : s.idx.toNat = n := hraw.1
    have hne : s.rem ≠ 1#9 := fun h1 => by
      rw [h1, BitVec.toNat_ofNat] at hrem
      omega
    refine ⟨_, byteStep_rp_of_ne_one hs hw (by omega) hne, rfl,
      .payload hs (by omega) (by omega) ?_ (hraw.accept (by omega))⟩
    exact (rem_pred_toNat (x := s.rem) (by omega)).trans (by omega)

/-- The last octet of the wire frame delivers the frame (R66). -/
theorem Receiving.deliver (h : Receiving raw last k s) {f : FrameFields} (hd : decodeRaw raw = some (.ok f))
    (hcap : raw.length ≤ s.params.bufCap) (htime : 2 ≤ k → elapsed s.params.clockW now last ≤ stallMs)
    (hk : k + 1 = raw.length + 2) :
    ∃ t, byteStep (rawOctet (sync0 :: sync1 :: raw) k) now s = .next t ∧ t.ev = .frame f ∧ t.st = .wfs ∧
      t.sp = false := by
  have hw := h.stalled_eq_false htime
  have hL := (rawOctet raw 6).isLt
  obtain ⟨⟨hhdr, hlen⟩, -⟩ := decodeRaw_eq_some hd
  rw [hdrLen, csLen] at hlen
  cases h with
  | hunting _ => omega
  | halfSync _ _ => omega
  | header _ _ _ => omega
  | @payload _ n hs hn hlt hrem hraw =>
    have hidx : s.idx.toNat = n := hraw.1
    have hr : s.rem = 1#9 := BitVec.eq_of_toNat_eq (hrem.trans (by rw [BitVec.toNat_ofNat]; omega))
    have hfull : (s.quiet.accept (rawOctet raw n) now).countDown.Holds raw raw.length now := by
      rw [show raw.length = n + 1 by omega]
      exact hraw.accept (by omega)
    have hcomplete : complete (s.quiet.accept (rawOctet raw n) now).countDown =
        .next ((s.quiet.accept (rawOctet raw n) now).countDown.abort (.frame f)) := by
      rw [complete, hfull.raw_eq, hd]
      rfl
    exact ⟨_, (byteStep_rp_of_eq_one hs hw (by omega) hr).trans hcomplete, rfl, rfl, rfl⟩

end

/-! ### Instructions that present a frame (R53) -/

/-- What the head of the octets to come says: the octet, those after it, and how many there are. -/
theorem drop_eq_cons {w bs : List Byte} {b : Byte} {k : Nat} (h : w.drop k = b :: bs) :
    rawOctet w k = b ∧ w.drop (k + 1) = bs ∧ w.length = k + 1 + bs.length := by
  have hlen := congrArg List.length h
  have hget := congrArg (fun l => l.getD 0 0) h
  rw [List.length_drop, List.length_cons] at hlen
  refine ⟨?_, ?_, by omega⟩
  · simpa [rawOctet, List.getD] using hget
  · rw [← List.tail_drop, h, List.tail_cons]

/-- A first instruction that completes puts its event before those of the rest. -/
theorem runInstrs_cons {i : Instr} {is : List Instr} {s t u : State} {es : List Event} (h : exec i s = .next t)
    (hrest : runInstrs is t = some (u, es)) : runInstrs (i :: is) s = some (u, t.ev :: es) := by
  simp [runInstrs, h, hrest]

theorem octetsOf_append_byte (is : List Instr) (b : Byte) (now : Nat) :
    octetsOf (is ++ [Instr.byte b now]) = octetsOf is ++ [b] := by
  simp [octetsOf]

section
variable {raw : List Byte} {f : FrameFields}

/-- From any point of a reception, instructions that present the octets to come, in time, raise FRAME with the last of
them and nothing before it. -/
theorem runInstrs_receiving (hd : decodeRaw raw = some (.ok f)) (b : Byte) (now : Nat) (prog : List Instr)
    (k last : Nat) (s : State) (h : Receiving raw last k s) (hcap : raw.length ≤ s.params.bufCap)
    (hoctets : octetsOf (prog ++ [Instr.byte b now]) = (sync0 :: sync1 :: raw).drop k)
    (htime : Timely s.params.clockW k last (prog ++ [Instr.byte b now])) :
    ∃ t, runInstrs (prog ++ [Instr.byte b now]) s =
        some (t, List.replicate prog.length Event.noEvent ++ [Event.frame f]) ∧
      t.st = .wfs ∧ t.sp = false := by
  obtain ⟨⟨-, hlen⟩, -⟩ := decodeRaw_eq_some hd
  induction prog generalizing k last s with
  | nil =>
    obtain ⟨rfl, -, hk⟩ := drop_eq_cons (bs := []) hoctets.symm
    obtain ⟨t, ht, hev, hst, hsp⟩ := h.deliver (now := now) hd hcap htime.1 hk.symm
    refine ⟨t, ?_, hst, hsp⟩
    rw [← hev]
    exact runInstrs_cons ht rfl
  | cons i prog ih =>
    have silent {k' last' : Nat} {t : State} (hx : exec i s = .next t) (hev : t.ev = .noEvent)
        (hr : Receiving raw last' k' t)
        (ho : octetsOf (prog ++ [Instr.byte b now]) = (sync0 :: sync1 :: raw).drop k')
        (hti : Timely s.params.clockW k' last' (prog ++ [Instr.byte b now])) :
        ∃ u, runInstrs (i :: prog ++ [Instr.byte b now]) s =
          some (u, List.replicate (prog.length + 1) Event.noEvent ++ [Event.frame f]) ∧ u.st = .wfs ∧ u.sp = false := by
      have hp := exec_params hx
      rw [← hp] at hcap hti
      obtain ⟨u, hu, hend⟩ := ih k' last' t hr hcap ho hti
      have hrun := runInstrs_cons hx hu
      rw [hev] at hrun
      exact ⟨u, hrun, hend⟩
    cases i with
    | byte b' now' =>
      obtain ⟨rfl, hrest, hk⟩ := drop_eq_cons (bs := octetsOf (prog ++ [Instr.byte b now])) hoctets.symm
      obtain ⟨htime, htimes⟩ := htime
      rw [octetsOf_append_byte, List.length_append, List.length_cons, List.length_cons, List.length_singleton] at hk
      obtain ⟨t, ht, hev, hr⟩ := h.next (now := now') hlen hcap htime (by omega)
      exact silent ht hev hr hrest.symm htimes
    | tick now' =>
      obtain ⟨htime, htimes⟩ := htime
      exact silent (exec_tick_of_not_stalled (h.stalled_eq_false htime)) rfl (h.with_outputs _ _ _ _) hoctets htimes
    | encode dst ctrl func p =>
      obtain ⟨hfits, htimes⟩ := htime
      exact silent (exec_encode_of_fits hfits dst ctrl func s) rfl (h.with_outputs _ _ _ _) hoctets htimes
    | _ => exact htime.elim

/-! ### A frame in the inbox (R46) -/

/-- From any point of a reception, the octets to come presented as BYTEs `d` apart deliver the frame. -/
theorem run_receiving (hd : decodeRaw raw = some (.ok f)) {d : Nat} (hgap : d ≤ stallMs) (rest : List HostItem)
    (bs : List Byte) (k last : Nat) (s : State) (h : Receiving raw last k s) (hcap : raw.length ≤ s.params.bufCap)
    (hne : bs ≠ []) (hbs : (sync0 :: sync1 :: raw).drop k = bs) (hq : s.inbox = bytesAt bs (last + d) d ++ rest) :
    ∃ t, Host.Core.run Sys2Proof.core bs.length s = .next t ∧ t.ev = .frame f ∧ t.st = .wfs ∧ t.sp = false ∧
      t.inbox = rest := by
  obtain ⟨⟨-, hlen⟩, -⟩ := decodeRaw_eq_some hd
  induction bs generalizing k last s with
  | nil => exact absurd rfl hne
  | cons b bs ih =>
    obtain ⟨rfl, hrest, hk⟩ := drop_eq_cons hbs
    have htime : 2 ≤ k → elapsed s.params.clockW (last + d) last ≤ stallMs := fun _ => by
      rw [elapsed_add_left]
      exact (Nat.mod_le _ _).trans hgap
    have hstep := step_of_byte hq
    have hpresent : Receiving raw last k (s.present (bytesAt bs (last + d + d) d ++ rest)) := h.with_outputs _ _ _ _
    cases bs with
    | nil =>
      obtain ⟨t, ht, hev, hst, hsp⟩ := hpresent.deliver (now := last + d) hd hcap htime hk.symm
      obtain ⟨-, -, hinbox, -⟩ := (byteStep_octetStep ht).frame
      exact ⟨t, run_of_step (hstep.trans ht), hev, hst, hsp, hinbox⟩
    | cons b' bs =>
      rw [List.length_cons, List.length_cons, List.length_cons] at hk
      obtain ⟨t, ht, -, hr⟩ := hpresent.next (now := last + d) hlen hcap htime (by omega)
      obtain ⟨hparams, -, hinbox, -⟩ := (byteStep_octetStep ht).frame
      obtain ⟨u, hu, hend⟩ := ih (k + 1) (last + d) t hr (hparams ▸ hcap) (List.cons_ne_nil _ _) hrest hinbox
      exact ⟨u, (run_of_step (hstep.trans ht)).trans hu, hend⟩

end

/-! ### R53 and R66 -/

theorem rawFrame_length (src dst : Half) (ctrl func : Byte) (payload : List Byte) :
    ((wireFrame src dst ctrl func payload).drop 2).length = 9 + payload.length := by
  rw [List.length_drop, wireFrame_length]
  omega

/-- Settles O39: from WFS none of the frame's octets has been presented yet. -/
theorem presentedFrameIsReceivedOnce : Obligations.PresentedFrameIsReceivedOnce := by
  intro s src dst ctrl func payload prog b now hs hfits hcap hoctets htime
  exact runInstrs_receiving (decodeRaw_wireFrame src dst ctrl func hfits) b now prog 0 0 s (.hunting hs)
    (by rw [rawFrame_length]; exact hcap) hoctets htime

/-- Each inbound kind takes the first octet of its wire frame, whose payload fits (R41, R46). -/
theorem exec_inbound {i : Instr} {src dst : Half} {ctrl func : Byte} {payload : List Byte} {t0 d : Nat}
    (hi : (i = .registrationRequest src dst payload t0 d ∧ ctrl = 0x00#8 ∧ func = 0x80#8) ∨
      (i = .registrationConfirmation src dst payload t0 d ∧ ctrl = 0x00#8 ∧ func = 0x81#8) ∨
      (i = .informationResponse src dst payload t0 d ∧ ctrl = 0x01#8 ∧ func = 0x81#8)) (hwf : i.wf = true) :
    payload.length ≤ lenMax ∧
      ∀ s, exec i s = byteStep sync0 t0 (s.presentTail src dst ctrl func payload t0 d) := by
  rcases hi with ⟨rfl, rfl, rfl⟩ | ⟨rfl, rfl, rfl⟩ | ⟨rfl, rfl, rfl⟩
  · have h10 : payload.length = 10 := serialFits_iff.mp hwf
    exact ⟨by rw [h10]; decide, exec_registrationRequest hwf src dst t0 d⟩
  · exact ⟨payloadFits_iff.mp hwf, exec_registrationConfirmation hwf src dst t0 d⟩
  · exact ⟨(telemetryFits_iff.mp hwf).2, exec_informationResponse hwf src dst t0 d⟩

/-- Settles O38: the first step takes the first sync octet, and the other octets are in the inbox. -/
theorem inboundKindIsDelivered : Obligations.InboundKindIsDelivered := by
  intro s i src dst ctrl func payload t0 d rest hi hwf hs hcap hgap
  obtain ⟨hfits, hx⟩ := exec_inbound hi hwf
  have hstep : step (s.present (encode i :: rest)) =
      .next (((s.present rest).presentTail src dst ctrl func payload t0 d).quiet.setSp true) := by
    rw [step_of_decode_ok (s := s.present (encode i :: rest)) rfl (decodeOfEncodeIsIdentity i hwf), hx]
    exact byteStep_presentTail_wfs (s := s.present rest) hs src dst ctrl func payload t0 d
  have hlen : 11 + payload.length = (wireFrame src dst ctrl func payload).tail.length + 1 := by
    rw [List.length_tail, wireFrame_length]
    omega
  rw [hlen]
  obtain ⟨t, ht, hend⟩ := run_receiving (decodeRaw_wireFrame src dst ctrl func hfits) hgap rest
    (wireFrame src dst ctrl func payload).tail 1 t0
    (((s.present rest).presentTail src dst ctrl func payload t0 d).quiet.setSp true) (.halfSync hs rfl)
    (by rw [rawFrame_length]; exact hcap) (List.cons_ne_nil _ _) rfl rfl
  exact ⟨t, (run_of_step hstep).trans ht, hend⟩

end Sys2Proof.Machine
end
